-- ==== Sys2Proof/Word.lean ====
section
/-! DEFINITION. The byte and the 16-bit word of the block (00_scope R10: every value is unsigned, bit 0 the least). -/

namespace Sys2Proof

/-- A byte, an unsigned 8-bit value (R10). -/
abbrev Byte := BitVec 8

/-- The 16-bit value of a jog word or of a 2-byte servo register (R44, R91). -/
abbrev Word := BitVec 16

end Sys2Proof
end

