-- ==== Sys2Proof/Config.lean ====
section
/-! DEFINITION. What an implementation of the block fixes: the types of the parameters of 00_scope R8 and the two
parameters the spec leaves OPEN, as constants without a body. The default values stand in Machine/Defaults.lean. -/

namespace Sys2Proof

/-- The two servo register memories an encoder operation can name (R42). -/
inductive Space where
  | ram
  | eep
deriving DecidableEq, Repr

/-- The width of a servo register or of a write value: 1 or 2 bytes, never more (R44, R89). -/
inductive Width where
  | one
  | two
deriving DecidableEq, Repr

/-- The names of the address catalog: those of the default table (R88), and any a model supplies besides
("A model that needs other registers supplies them", R88). -/
inductive RegName where
  | idRam | ackPolicyRam | positionKpRam | statusError | statusDetail | torqueControl | ledControl
  | voltage | temperature | calibratedPosition | absolutePosition
  | baudRate | idEep | ackPolicyEep | positionKpEep
  | other (n : Nat)
deriving DecidableEq, Repr

/-- A catalog address (R86). -/
structure CatalogAddr where
  name     : RegName
  space    : Space
  off      : Byte
  w        : Width
  readable : Bool
  writable : Bool
deriving DecidableEq, Repr

/-- The two protocol variants (R1, R9). -/
inductive ServoModel where
  | drs0101
  | drs0201
deriving DecidableEq, Repr, Inhabited

/-- The command bytes `CMD_*` (R72). -/
structure CmdBytes where
  eepWrite : Byte
  eepRead  : Byte
  ramWrite : Byte
  ramRead  : Byte
  iJog     : Byte
  sJog     : Byte
  stat     : Byte
  reboot   : Byte
deriving DecidableEq, Repr

/-- Where one bit of a jog word comes from (R91): a constant, a bit of the position or speed, or `dirbit`. -/
inductive JogBit where
  | zero
  | one
  | value (i : Nat)
  | dir
deriving DecidableEq, Repr

/-- `JOG_WORD` as a parameter (R3, R8): the sources of the word's bits for a position and for a speed, bit 0 first (log
entry 9). -/
structure JogWordLayout where
  position : List JogBit
  speed    : List JogBit
deriving DecidableEq, Repr

/-- Where one bit of a SET byte comes from (R93): a constant, the mode, or one of the three LED bits. -/
inductive SetBit where
  | zero
  | one
  | mode
  | green
  | blue
  | red
deriving DecidableEq, Repr

/-- The parameters a model takes as arguments, all of them (R8). `setByteLayout` is `SET_BYTE`: the sources of its bits, bit 0
first (log entry 9). `rqDepth = none` is the unbounded ready queue (`RQ_DEPTH = ∞`). -/
structure Params where
  hdr0           : Byte
  hdr1           : Byte
  fixedLen       : Nat
  minSize        : Nat
  cksumMask      : Byte
  cmd            : CmdBytes
  writeLenField  : Bool
  sjogBlockWidth : Nat
  ijogMaxEntries : Nat
  addrTable      : List CatalogAddr
  jogWordLayout  : JogWordLayout
  setByteLayout  : List SetBit
  dirCwBit       : Bool
  rqDepth        : Option Nat
  bufDepth       : Nat
  servoModel     : ServoModel
deriving DecidableEq, Repr

/-- `DIR_CW_BIT` of the built block, OPEN in R8 (93 K11): no body, so nothing can be proved of its value (log entry 4). -/
opaque Config.dirCwBit : Bool

/-- `SERVO_MODEL` of the built block, OPEN in R8 (93 K12): no body (log entry 5). -/
opaque Config.servoModel : ServoModel

end Sys2Proof
end

