-- ==== Sys2Proof/Machine/Defaults.lean ====
section
/-! DEFINITION. The values 00_scope R8 fixes for the block, and the default of each parameter: R66 and R72 for the numbers,
R88 for the address catalog. -/

namespace Sys2Proof

/-- The longest payload a one-byte size can carry (R65). -/
def maxPayload : Nat := 248

/-- The broadcast id (R14, R63). -/
def broadcastId : Byte := 0xFE

/-- The RAM rows of the default `ADDR_TABLE` (R88). -/
def defaultRamTable : List CatalogAddr :=
  [ ⟨.idRam,              .ram, 0x00, .one, true, true⟩,
    ⟨.ackPolicyRam,       .ram, 0x01, .one, true, true⟩,
    ⟨.positionKpRam,      .ram, 0x18, .two, true, true⟩,
    ⟨.statusError,        .ram, 0x30, .one, true, true⟩,
    ⟨.statusDetail,       .ram, 0x31, .one, true, true⟩,
    ⟨.torqueControl,      .ram, 0x34, .one, true, true⟩,
    ⟨.ledControl,         .ram, 0x35, .one, true, true⟩,
    ⟨.voltage,            .ram, 0x36, .one, true, false⟩,
    ⟨.temperature,        .ram, 0x37, .one, true, false⟩,
    ⟨.calibratedPosition, .ram, 0x3A, .two, true, false⟩,
    ⟨.absolutePosition,   .ram, 0x3C, .two, true, false⟩ ]

/-- The EEPROM rows of the default `ADDR_TABLE` (R88). -/
def defaultEepTable : List CatalogAddr :=
  [ ⟨.baudRate,       .eep, 0x04, .one, true, true⟩,
    ⟨.idEep,          .eep, 0x06, .one, true, true⟩,
    ⟨.ackPolicyEep,   .eep, 0x07, .one, true, true⟩,
    ⟨.positionKpEep,  .eep, 0x1E, .two, true, true⟩ ]

/-- The default command bytes (R72). -/
def defaultCmdBytes : CmdBytes :=
  { eepWrite := 0x01, eepRead := 0x02, ramWrite := 0x03, ramRead := 0x04,
    iJog := 0x05, sJog := 0x06, stat := 0x07, reboot := 0x09 }

/-- The default `JOG_WORD` (R91): the 16 bits of a position as they are; a speed in bits 13 to 0, the direction in bit 14. -/
def defaultJogWordLayout : JogWordLayout :=
  { position := (List.range 16).map .value
    speed := (List.range 14).map .value ++ [.dir, .zero] }

/-- The default `SET_BYTE` (R93): stop 0, mode, green, blue, red, jog invalid 0, reserved 0. -/
def defaultSetByteLayout : List SetBit := [.zero, .mode, .green, .blue, .red, .zero, .zero, .zero]

/-- The block with every parameter at its default (R8) and the two OPEN ones at the body-less constants of Config. -/
def Params.default : Params :=
  { hdr0 := 0xFF
    hdr1 := 0xFF
    fixedLen := 7
    minSize := 7
    cksumMask := 0xFE
    cmd := defaultCmdBytes
    writeLenField := false
    sjogBlockWidth := 5
    ijogMaxEntries := 49
    addrTable := defaultRamTable ++ defaultEepTable
    jogWordLayout := defaultJogWordLayout
    setByteLayout := defaultSetByteLayout
    dirCwBit := Config.dirCwBit
    rqDepth := none
    bufDepth := 255
    servoModel := Config.servoModel }

/-- The parameters the spec's vectors use (95_test_vectors): the defaults with `DIR_CW_BIT = 0`. -/
def Params.vectors : Params := { Params.default with dirCwBit := false }

/-- The catalog's `ACK_POLICY_RAM` (R79, R88), looked up by its name. -/
def Params.ackPolicyRam (P : Params) : Option CatalogAddr :=
  P.addrTable.find? fun a => a.name = .ackPolicyRam

end Sys2Proof
end

