-- ==== Sys2Proof/Syntax.lean ====
section
/-! DEFINITION. The transactions of the block: one constructor of Instr for each row of spec/opcode_table.json, with the
typed operands of 30_encoding R75, R83, R86, R90 to R94 and 40_encoder R100, and the packets the decoder delivers (R23). -/

namespace Sys2Proof

/-- Rotation direction (R94). -/
inductive Direction where
  | clockwise
  | counterClockwise
deriving DecidableEq, Repr

/-- Jog mode (R90): a 16-bit position, or a 14-bit speed with a direction. -/
inductive JogMode where
  | position (p : Word)
  | speed (s : BitVec 14) (dir : Direction)
deriving DecidableEq, Repr

/-- LED colour of a jog, three independent bits (R92). -/
structure JogColor where
  green : Bool
  blue  : Bool
  red   : Bool
deriving DecidableEq, Repr

/-- One entry of an IJog batch (R83). -/
structure JogEntry where
  playtime : Byte
  mode     : JogMode
  color    : JogColor
  targetId : Byte
deriving DecidableEq, Repr

/-- A write value `(vw, bits)` with `vw` in {1, 2} and `bits < 256^vw` (R75): both conditions hold by the type. -/
inductive WriteValue where
  | byte (v : Byte)
  | word (v : Word)
deriving DecidableEq, Repr

/-- A decoded acknowledgment packet (R23). -/
structure AckPacket where
  id      : Byte
  cmd     : Byte
  payload : List Byte
deriving DecidableEq, Repr

/-- A transaction of the host: an encoder request (`ENC id=… …`, R95, with its target id first) or a decoder
transaction. One constructor per row of spec/opcode_table.json. -/
inductive Instr where
  | writeRam (id : Byte) (a : CatalogAddr) (v : WriteValue)
  | writeEep (id : Byte) (a : CatalogAddr) (v : WriteValue)
  | readRam (id : Byte) (a : CatalogAddr)
  | readEep (id : Byte) (a : CatalogAddr)
  | sJog (id : Byte) (playtime : Byte) (mode : JogMode) (color : JogColor) (targetId : Byte)
  | iJog (id : Byte) (entries : List JogEntry)
  | stat (id : Byte)
  | reboot (id : Byte)
  | ackPolicy (id : Byte) (p : Byte)
  | feedb (b : Byte)
  | feed (bytes : List Byte)
  | pop
  | drain
  | reset
deriving DecidableEq, Repr

end Sys2Proof
end

