-- ==== Sys2Proof/Machine/Checksum.lean ====
section
/-! DEFINITION. The frame both halves share: the checksums (30_encoding R66, R67), the framer core (40_encoder R101) and the
validity test of a complete candidate (R68). -/

namespace Sys2Proof

/-- `xor_fold(s)`, `0x00` on the empty sequence (R12). -/
def xorFold : List Byte → Byte
  | [] => 0
  | b :: bs => b ^^^ xorFold bs

/-- `C1`, the masked XOR of size, id, command and payload (R66). -/
def checksum1 (mask size id cmd : Byte) (payload : List Byte) : Byte :=
  (size ^^^ id ^^^ cmd ^^^ xorFold payload) &&& mask

/-- `C2`, the masked complement of `C1` (R67). -/
def checksum2 (mask c1 : Byte) : Byte := ~~~c1 &&& mask

/-- The size byte of a frame, header included (R62). -/
def sizeByte (P : Params) (payload : List Byte) : Byte := BitVec.ofNat 8 (P.fixedLen + payload.length)

/-- `Frame(id, cmd, payload)`, the framer core (R101). -/
def frame (P : Params) (id cmd : Byte) (payload : List Byte) : List Byte :=
  let size := sizeByte P payload
  let c1 := checksum1 P.cksumMask size id cmd payload
  let c2 := checksum2 P.cksumMask c1
  [P.hdr0, P.hdr1, size, id, cmd, c1, c2] ++ payload

/-- The packet of a complete candidate `f`, if both its checksums equal their recomputed values (R68, R150). The size byte
is among the covered bytes (90_conflicts C2). -/
def parseFrame (mask : Byte) : List Byte → Option AckPacket
  | _ :: _ :: size :: id :: cmd :: k1 :: k2 :: payload =>
    if k1 = checksum1 mask size id cmd payload ∧ k2 = checksum2 mask k1 then some ⟨id, cmd, payload⟩ else none
  | _ => none

/-- `valid(f)` (R68). -/
def validFrame (mask : Byte) (f : List Byte) : Bool := (parseFrame mask f).isSome

end Sys2Proof
end

