-- ==== Sys2Proof/Machine/Operands.lean ====
section
/-! DEFINITION. Every operand form of the encoder: little-endian values (R12, R46), the write length byte (R75), jog words,
SET bytes and jog sub-blocks (R82, R91, R93), and `Serialize` of each operation (40_encoder R102, R105 to R113). -/

namespace Sys2Proof

/-- The one error an encoder transaction can return, with the spec's code 0 (R180). -/
inductive BuildError where
  | addressWidthMismatch
deriving DecidableEq, Repr

/-- The numeric code of the error (R180; the spec's own numbering). -/
def BuildError.code : BuildError → Nat
  | .addressWidthMismatch => 0

/-- What `Serialize` answers: a command byte and a payload, or the error (R102). -/
abbrev Serialized := Except BuildError (Byte × List Byte)

/-- The width in bytes, as a byte of a payload (R75, R76). -/
def widthByte : Width → Byte
  | .one => 1
  | .two => 2

/-- The byte width `vw` of a write value (R75). -/
def valueWidth : WriteValue → Width
  | .byte _ => .one
  | .word _ => .two

/-- Bits 7 to 0 of a 16-bit value (R10, R12). -/
def lowByte (v : Word) : Byte := v.extractLsb' 0 8

/-- Bits 15 to 8 of a 16-bit value (R10, R12). -/
def highByte (v : Word) : Byte := v.extractLsb' 8 8

/-- `le_bytes(bits, vw)` (R12, R46): the low byte first. -/
def leBytes : WriteValue → List Byte
  | .byte v => [v]
  | .word v => [lowByte v, highByte v]

/-- `LF`: `[a.w]` when the block sends a write length byte, else nothing (R75). -/
def lengthField (P : Params) (w : Width) : List Byte :=
  if P.writeLenField then [widthByte w] else []

/-- `dirbit` (R91). -/
def dirBit (P : Params) : Direction → Bool
  | .clockwise => P.dirCwBit
  | .counterClockwise => !P.dirCwBit

/-- The number whose binary digits these are, the lowest first. -/
def natOfBits : List Bool → Nat
  | [] => 0
  | b :: bs => b.toNat + 2 * natOfBits bs

/-- One bit of a jog word, for a position or speed with the bits `value` and a direction bit `dir` (R91). -/
def jogBit (value : Nat → Bool) (dir : Bool) : JogBit → Bool
  | .zero => false
  | .one => true
  | .value i => value i
  | .dir => dir

/-- `JOG_WORD` (R91), by the block's layout. A position has no direction, so its `dir` is 0. -/
def jogWord (P : Params) : JogMode → Word
  | .position p => BitVec.ofNat 16 (natOfBits (P.jogWordLayout.position.map (jogBit p.getLsbD false)))
  | .speed s dir => BitVec.ofNat 16 (natOfBits (P.jogWordLayout.speed.map (jogBit s.getLsbD (dirBit P dir))))

/-- The mode bit of the SET byte: 1 in speed mode (R93). -/
def modeBit : JogMode → Bool
  | .position _ => false
  | .speed _ _ => true

/-- One bit of a SET byte (R93). -/
def setBit (mode : JogMode) (color : JogColor) : SetBit → Bool
  | .zero => false
  | .one => true
  | .mode => modeBit mode
  | .green => color.green
  | .blue => color.blue
  | .red => color.red

/-- `SET_BYTE` (R93), by the block's layout. -/
def setByte (P : Params) (mode : JogMode) (color : JogColor) : Byte :=
  BitVec.ofNat 8 (natOfBits (P.setByteLayout.map (setBit mode color)))

/-- `block(mode, color, tid, pt)`, a jog sub-block of 5 bytes (R82). -/
def jogBlock (P : Params) (mode : JogMode) (color : JogColor) (tid pt : Byte) : List Byte :=
  [lowByte (jogWord P mode), highByte (jogWord P mode), setByte P mode color, tid, pt]

/-- `block(e)` (R82). -/
def entryBlock (P : Params) (e : JogEntry) : List Byte :=
  jogBlock P e.mode e.color e.targetId e.playtime

/-- A write under command byte `cmd`: the one error, raised before any byte exists, or offset, length byte and value
(R75, R105, R106). -/
def serializeWrite (P : Params) (cmd : Byte) (a : CatalogAddr) (v : WriteValue) : Serialized :=
  if valueWidth v = a.w then .ok (cmd, [a.off] ++ lengthField P a.w ++ leBytes v)
  else .error .addressWidthMismatch

/-- `WriteRam(a, v)` (R105). -/
def serializeWriteRam (P : Params) (a : CatalogAddr) (v : WriteValue) : Serialized :=
  serializeWrite P P.cmd.ramWrite a v

/-- `WriteEep(a, v)` (R106). -/
def serializeWriteEep (P : Params) (a : CatalogAddr) (v : WriteValue) : Serialized :=
  serializeWrite P P.cmd.eepWrite a v

/-- The payload of a read: the offset and the declared width (R76). -/
def readPayload (a : CatalogAddr) : List Byte := [a.off, widthByte a.w]

/-- `ReadRam(a)` (R107). -/
def serializeReadRam (P : Params) (a : CatalogAddr) : Serialized :=
  .ok (P.cmd.ramRead, readPayload a)

/-- `ReadEep(a)` (R108). -/
def serializeReadEep (P : Params) (a : CatalogAddr) : Serialized :=
  .ok (P.cmd.eepRead, readPayload a)

/-- `SJog(pt, mode, color, tid)` (R80, R109). -/
def serializeSJog (P : Params) (pt : Byte) (mode : JogMode) (color : JogColor) (tid : Byte) : Serialized :=
  .ok (P.cmd.sJog, [pt] ++ (jogBlock P mode color tid pt).take P.sjogBlockWidth)

/-- The blocks of an IJog, in request order (R81). -/
def entryBlocks (P : Params) : List JogEntry → List Byte
  | [] => []
  | e :: es => entryBlock P e ++ entryBlocks P es

/-- `IJog(e_1, …, e_n)` (R81, R110). -/
def serializeIJog (P : Params) (entries : List JogEntry) : Serialized :=
  .ok (P.cmd.iJog, entryBlocks P entries)

/-- `Stat` (R77, R111). -/
def serializeStat (P : Params) : Serialized := .ok (P.cmd.stat, [])

/-- `Reboot` (R78, R112). -/
def serializeReboot (P : Params) : Serialized := .ok (P.cmd.reboot, [])

/-- `AckPolicy(p)`, with `a` the catalog's `ACK_POLICY_RAM` (R79, R113). -/
def serializeAckPolicy (P : Params) (a : CatalogAddr) (p : Byte) : Serialized :=
  .ok (P.cmd.ramWrite, [a.off] ++ lengthField P a.w ++ [p])

end Sys2Proof
end

