-- ==== Sys2Proof/WellFormed.lean ====
section
/-! DEFINITION. Which transactions the typed interface can carry (00_scope R13, 30_encoding R87, 40_encoder R100), and which
parameter values make a block of the spec (R8, R72, R79, R80, R88). -/

namespace Sys2Proof

/-- `a` is a catalog address of space `sp` (R87). -/
def CatalogAddr.inSpace (P : Params) (sp : Space) (a : CatalogAddr) : Bool :=
  decide (a ∈ P.addrTable) && decide (a.space = sp)

/-- The request interface can carry the transaction (R13, R87, R100). Decoder transactions have no condition. -/
def Instr.wf (P : Params) : Instr → Bool
  | .writeRam _ a _ => a.inSpace P .ram && a.writable
  | .writeEep _ a _ => a.inSpace P .eep && a.writable
  | .readRam _ a => a.inSpace P .ram && a.readable
  | .readEep _ a => a.inSpace P .eep && a.readable
  | .sJog _ _ _ _ _ => true
  | .iJog _ entries => decide (entries.length ≤ P.ijogMaxEntries)
  | .stat _ => true
  | .reboot _ => true
  | .ackPolicy _ _ => P.ackPolicyRam.isSome
  | .feedb _ => true
  | .feed _ => true
  | .pop => true
  | .drain => true
  | .reset => true

/-- An encoder request, as against a decoder transaction (R95). -/
def Instr.isRequest : Instr → Bool
  | .writeRam _ _ _ => true
  | .writeEep _ _ _ => true
  | .readRam _ _ => true
  | .readEep _ _ => true
  | .sJog _ _ _ _ _ => true
  | .iJog _ _ => true
  | .stat _ => true
  | .reboot _ => true
  | .ackPolicy _ _ => true
  | .feedb _ => false
  | .feed _ => false
  | .pop => false
  | .drain => false
  | .reset => false

/-- The eight command bytes as a list (R72). -/
def CmdBytes.toList (c : CmdBytes) : List Byte :=
  [c.eepWrite, c.eepRead, c.ramWrite, c.ramRead, c.iJog, c.sJog, c.stat, c.reboot]

/-- `ACK_POLICY_RAM` is a writable 1-byte RAM register (R79, R181). -/
def Params.ackPolicyOk (P : Params) : Bool :=
  match P.ackPolicyRam with
  | some a => decide (a.space = .ram) && a.writable && decide (a.w = .one)
  | none => false

/-- The parameters whose one value R8 fixes for the hardware, at that value. -/
abbrev Params.Fixed (P : Params) : Prop :=
  P.hdr0 = 0xFF ∧ P.hdr1 = 0xFF ∧ P.fixedLen = 7 ∧ P.minSize = 7 ∧ P.ijogMaxEntries = 49 ∧ P.bufDepth = 255

/-- A `JOG_WORD` of 16 bits that carries every bit of a position, and every bit of a speed with its direction (R90, R91). -/
def JogWordLayout.carriesAll (L : JogWordLayout) : Bool :=
  decide (L.position.length = 16) && (List.range 16).all (fun i => decide (JogBit.value i ∈ L.position)) &&
  decide (L.speed.length = 16) && (List.range 14).all (fun i => decide (JogBit.value i ∈ L.speed)) &&
  decide (JogBit.dir ∈ L.speed)

/-- A `SET_BYTE` of 8 bits that carries the mode and the three LED bits (R93). -/
def SetBit.layoutCarriesAll (L : List SetBit) : Bool :=
  decide (L.length = 8) && [SetBit.mode, .green, .blue, .red].all fun b => decide (b ∈ L)

/-- Parameters of a block: the fixed values (R8), distinct command bytes (R72), a jog sub-block of 5 or 4 bytes (R80), jog
layouts that lose no operand (log entry 9), the ack policy register (R79), and a catalog that names no place twice (log
entry 17). -/
def Params.wf (P : Params) : Bool :=
  decide P.Fixed &&
  P.jogWordLayout.carriesAll && SetBit.layoutCarriesAll P.setByteLayout &&
  decide P.cmd.toList.Nodup &&
  (decide (P.sjogBlockWidth = 4) || decide (P.sjogBlockWidth = 5)) &&
  P.ackPolicyOk &&
  decide (P.addrTable.map fun a => (a.space, a.off)).Nodup

end Sys2Proof
end

