-- ==== Sys2Proof/Decode.lean ====
section
/-! DEFINITION. Reading a command frame back into the request it stands for, total on any bytes and rejecting by name, and
the encoder of a request into its frame. Both follow 30_encoding R60 to R94. Port transactions (FEEDB, FEED, POP, DRAIN,
RESET) have no encoding (opcode_table.json: "none (port transaction)"). -/

namespace Sys2Proof

/-- Why a byte sequence is no command frame of the block. -/
inductive DecodeError where
  | truncated          -- fewer bytes than the size byte declares
  | badHeader          -- bytes 0 and 1 are not FF FF (R61)
  | badSize            -- a size byte below MIN_SIZE (R85)
  | badChecksum        -- valid(f) is false (R68)
  | unknownCommand     -- a command byte outside R72's table (R85)
  | unknownAddress     -- no catalog address with this space, offset and flag (R87)
  | badPayload         -- a payload that is not the operation's layout (R74)
deriving DecidableEq, Repr

/-- The answer of the decoder: a request and the bytes after its frame, or a named rejection. -/
inductive Decoded where
  | instr (i : Instr) (rest : List Byte)
  | rejected (e : DecodeError)
deriving DecidableEq, Repr

/-- The catalog address with this space and offset that the operation may use (R86, R87). -/
def lookupAddr (P : Params) (sp : Space) (usable : CatalogAddr → Bool) (off : Byte) : Option CatalogAddr :=
  P.addrTable.find? fun a => decide (a.space = sp) && decide (a.off = off) && usable a

/-- A little-endian value of the register's width (R46, R75). -/
def decodeValue : Width → List Byte → Option WriteValue
  | .one, [b] => some (.byte b)
  | .two, [lo, hi] => some (.word (hi ++ lo))
  | _, _ => none

/-- The bytes after the write length byte, where the block sends one, which must be the register's width (R75). -/
def dropLengthField (P : Params) (w : Width) (bytes : List Byte) : Option (List Byte) :=
  if P.writeLenField then
    match bytes with
    | l :: rest => if l = widthByte w then some rest else none
    | [] => none
  else some bytes

/-- The payload of a write (R75). -/
def decodeWrite (P : Params) (sp : Space) (payload : List Byte) : Except DecodeError (CatalogAddr × WriteValue) :=
  match payload with
  | [] => .error .badPayload
  | off :: rest =>
    match lookupAddr P sp CatalogAddr.writable off with
    | none => .error .unknownAddress
    | some a =>
      match (dropLengthField P a.w rest).bind (decodeValue a.w) with
      | none => .error .badPayload
      | some v => .ok (a, v)

/-- The payload of a read (R76). -/
def decodeRead (P : Params) (sp : Space) (payload : List Byte) : Except DecodeError CatalogAddr :=
  match payload with
  | [off, w] =>
    match lookupAddr P sp CatalogAddr.readable off with
    | none => .error .unknownAddress
    | some a => if w = widthByte a.w then .ok a else .error .badPayload
  | _ => .error .badPayload

/-- The direction whose `dirbit` is `b` (R91). -/
def decodeDir (P : Params) (b : Bool) : Direction :=
  if b = P.dirCwBit then .clockwise else .counterClockwise

/-- The mode whose kind is `speed` and whose operands stand at their places of the jog word `w` (R90, R91). -/
def readJogMode (P : Params) (speed : Bool) (w : Word) : JogMode :=
  if speed then
    let at' (b : JogBit) : Bool := w.getLsbD (P.jogWordLayout.speed.idxOf b)
    .speed (BitVec.ofNat 14 (natOfBits ((List.range 14).map fun i => at' (.value i)))) (decodeDir P (at' .dir))
  else
    .position (BitVec.ofNat 16 (natOfBits ((List.range 16).map fun i =>
      w.getLsbD (P.jogWordLayout.position.idxOf (.value i)))))

/-- Mode and colour from the jog word and the SET byte, each bit read at the place the layouts give it. The two must be the
bytes R91 and R93 give for what was read. -/
def decodeJog (P : Params) (lo hi set : Byte) : Option (JogMode × JogColor) :=
  let w : Word := hi ++ lo
  let at' (b : SetBit) : Bool := set.getLsbD (P.setByteLayout.idxOf b)
  let mode := readJogMode P (at' .mode) w
  let color : JogColor := ⟨at' .green, at' .blue, at' .red⟩
  if jogWord P mode = w ∧ setByte P mode color = set then some (mode, color) else none

/-- The payload of an SJog, for a sub-block of 5 or of 4 bytes (R80). In the 5-byte block the playtime stands twice. -/
def decodeSJog (P : Params) (id : Byte) (payload : List Byte) : Except DecodeError Instr :=
  match payload with
  | pt :: lo :: hi :: set :: tid :: tail =>
    if (P.sjogBlockWidth = 5 ∧ tail = [pt]) ∨ (P.sjogBlockWidth = 4 ∧ tail = []) then
      match decodeJog P lo hi set with
      | some (mode, color) => .ok (.sJog id pt mode color tid)
      | none => .error .badPayload
    else .error .badPayload
  | _ => .error .badPayload

/-- The entries of an IJog payload, 5 bytes each (R81). -/
def decodeEntries (P : Params) : List Byte → Option (List JogEntry)
  | [] => some []
  | lo :: hi :: set :: tid :: pt :: rest =>
    match decodeJog P lo hi set, decodeEntries P rest with
    | some (mode, color), some es => some (⟨pt, mode, color, tid⟩ :: es)
    | _, _ => none
  | _ => none

/-- The payload of an IJog (R81, R110), of at most IJOG_MAX_ENTRIES entries (R65). -/
def decodeIJog (P : Params) (id : Byte) (payload : List Byte) : Except DecodeError Instr :=
  match decodeEntries P payload with
  | none => .error .badPayload
  | some es => if es.length ≤ P.ijogMaxEntries then .ok (.iJog id es) else .error .badPayload

/-- An operation without a payload (R77, R78). -/
def decodeEmpty (i : Instr) : List Byte → Except DecodeError Instr
  | [] => .ok i
  | _ :: _ => .error .badPayload

/-- The request of a frame's id, command byte and payload, by the command byte (R72, R74). A write to `ACK_POLICY_RAM` is a
`WriteRam`: an AckPolicy cannot be told from it (R79, opcode_table.json). -/
def decodeRequest (P : Params) (id cmd : Byte) (payload : List Byte) : Except DecodeError Instr :=
  if cmd = P.cmd.ramWrite then (decodeWrite P .ram payload).map fun x => .writeRam id x.1 x.2
  else if cmd = P.cmd.eepWrite then (decodeWrite P .eep payload).map fun x => .writeEep id x.1 x.2
  else if cmd = P.cmd.ramRead then (decodeRead P .ram payload).map fun a => .readRam id a
  else if cmd = P.cmd.eepRead then (decodeRead P .eep payload).map fun a => .readEep id a
  else if cmd = P.cmd.sJog then decodeSJog P id payload
  else if cmd = P.cmd.iJog then decodeIJog P id payload
  else if cmd = P.cmd.stat then decodeEmpty (.stat id) payload
  else if cmd = P.cmd.reboot then decodeEmpty (.reboot id) payload
  else .error .unknownCommand

/-- The request at the front of a byte sequence, and the bytes after its frame. -/
def decode (P : Params) (bytes : List Byte) : Decoded :=
  match bytes with
  | h0 :: h1 :: size :: _ =>
    if h0 ≠ P.hdr0 ∨ h1 ≠ P.hdr1 then .rejected .badHeader
    else if size.toNat < P.minSize then .rejected .badSize
    else if bytes.length < size.toNat then .rejected .truncated
    else
      match parseFrame P.cksumMask (bytes.take size.toNat) with
      | none => .rejected .badChecksum
      | some f =>
        match decodeRequest P f.id f.cmd f.payload with
        | .ok i => .instr i (bytes.drop size.toNat)
        | .error e => .rejected e
  | _ => .rejected .truncated

/-- The id and the serialized operation of a transaction's operands, whatever they are: none for a port transaction, and for
an AckPolicy of a block without that register. -/
def serializeOperands (P : Params) : Instr → Option (Byte × Serialized)
  | .writeRam id a v => some (id, serializeWriteRam P a v)
  | .writeEep id a v => some (id, serializeWriteEep P a v)
  | .readRam id a => some (id, serializeReadRam P a)
  | .readEep id a => some (id, serializeReadEep P a)
  | .sJog id pt mode color tid => some (id, serializeSJog P pt mode color tid)
  | .iJog id es => some (id, serializeIJog P es)
  | .stat id => some (id, serializeStat P)
  | .reboot id => some (id, serializeReboot P)
  | .ackPolicy id p => P.ackPolicyRam.map fun a => (id, serializeAckPolicy P a p)
  | .feedb _ => none
  | .feed _ => none
  | .pop => none
  | .drain => none
  | .reset => none

/-- The id and the serialized operation of a request the typed interface carries. A request outside it is not encoded (R182),
nor is a port transaction. -/
def serialize (P : Params) (i : Instr) : Option (Byte × Serialized) :=
  if i.wf P then serializeOperands P i else none

/-- The frame of a request; none where it is no request (R182), where the operation ends in the build error (R102), and for
port transactions. -/
def encode (P : Params) (i : Instr) : Option (List Byte) :=
  match serialize P i with
  | some (id, .ok (cmd, payload)) => some (frame P id cmd payload)
  | _ => none

/-- The zero of a value of this width. -/
def zeroValue : Width → WriteValue
  | .one => .byte 0
  | .two => .word 0

/-- The payload of the opcode table's row for command byte `cmd` with every operand zero: the first catalog address the row
may name, value 0, jog fields 0, no entries (log entry 18). -/
def tablePayload (P : Params) (cmd : Byte) : List Byte :=
  let write (sp : Space) : List Byte :=
    match P.addrTable.find? fun a => decide (a.space = sp) && a.writable with
    | some a => [a.off] ++ lengthField P a.w ++ leBytes (zeroValue a.w)
    | none => []
  let read (sp : Space) : List Byte :=
    match P.addrTable.find? fun a => decide (a.space = sp) && a.readable with
    | some a => readPayload a
    | none => []
  if cmd = P.cmd.ramWrite then write .ram
  else if cmd = P.cmd.eepWrite then write .eep
  else if cmd = P.cmd.ramRead then read .ram
  else if cmd = P.cmd.eepRead then read .eep
  else if cmd = P.cmd.sJog then List.replicate (1 + P.sjogBlockWidth) 0
  else []

/-- The request the decoder reads from an opcode-table word: the table numbers the bits of the command byte (frame byte 4)
from 0, and a second byte, where one is given, is the id. The frame around them is built from the spec's layout with every
operand zero and given to `decode` (log entry 18). -/
def decodeTableWord (nbits w : Nat) : Option Instr :=
  if nbits < 8 then none
  else
    let P := Params.default
    let cmd : Byte := BitVec.ofNat 8 w
    let id : Byte := BitVec.ofNat 8 (w / 256)
    match decode P (frame P id cmd (tablePayload P cmd)) with
    | .instr i _ => some i
    | .rejected _ => none

end Sys2Proof
end

