-- ==== Sys2Proof/Machine/State.lean ====
section
/-! DEFINITION. The state of the block as plain data: the decoder's three elements (10_state R22), the parameters of the built
block, and the model's two ports to the host: the transactions presented and the last output. -/

namespace Sys2Proof.Machine

/-- The output of a transaction (00_scope R13 "the next state and an output. The output may be empty"). -/
inductive Response where
  | silent                          -- FEEDB, FEED and RESET have no output (R140)
  | frame (bytes : List Byte)       -- `Ok(frame)` of the encoder (R100)
  | error (e : BuildError)          -- `Err(AddressWidthMismatch)`, no bytes (R100)
  | popped (p : Option AckPacket)   -- `None` or `Some(AckPacket)` of POP (R144)
  | drained (ps : List AckPacket)   -- the packets of DRAIN, oldest first (R145)
deriving DecidableEq, Repr

/-- Why the machine stops. -/
inductive Fault where
  /-- Raised by FEEDB, FEED, POP and DRAIN on a decoder with `faulted = 1`: it "takes no transaction. It is stuck" (R140,
  R186) until RESET. Safe: the model takes no step where the spec has none. -/
  | queueOverflow
deriving DecidableEq, Repr

/-- Why a presented thing is no transaction of the block. -/
inductive Refusal where
  /-- An arm of exec without a meaning: none is left. Safe. -/
  | notModelled (mnemonic : String)
  /-- WriteRam, WriteEep, ReadRam, ReadEep with an address that is not in ADDR_TABLE: not a request (R13, R87). Safe. -/
  | notCatalogAddress
  /-- The same four, with an address of the other servo memory: not a request (R87). Safe. -/
  | wrongSpace
  /-- WriteRam, WriteEep of an address that is not writable: not a request (R87). Safe. -/
  | notWritable
  /-- ReadRam, ReadEep of an address that is not readable: not a request (R87). Safe. -/
  | notReadable
  /-- IJog with more than IJOG_MAX_ENTRIES entries: not a request (R13, R65). Safe. -/
  | tooManyEntries
  /-- AckPolicy on a block whose ADDR_TABLE names no ACK_POLICY_RAM: its address is no catalog address (R79, R87). Safe. -/
  | noAckPolicyRegister
deriving DecidableEq, Repr

/-- The state of the block. `buf`, `rq` and `faulted` are the decoder's state, and all of it (R22); the encoder has none
(R21). `params`, `input` and `out` are the model's (log entries 1, 2, 3). -/
structure State where
  params  : Params
  buf     : List Byte
  rq      : List AckPacket
  faulted : Bool
  input   : List Instr
  out     : Response
deriving DecidableEq, Repr

/-- A decoder just created in a block with parameters `P` (R30, R200), with nothing presented and nothing answered. -/
def State.fresh (P : Params) : State :=
  { params := P, buf := [], rq := [], faulted := false, input := [], out := .silent }

/-- The block right after reset (R30) with the parameters of R8. -/
def State.reset : State := State.fresh Params.default

end Sys2Proof.Machine
end

