-- ==== Sys2Proof/Machine/Flags.lean ====
section
/-! DEFINITION. The status outputs (10_state R27; the block has no condition flags, R20, R28) and the test for a full queue (R150). -/

namespace Sys2Proof.Machine

/-- `q_empty` (R27), the block's only status bit (R28). -/
def State.qEmpty (s : State) : Bool := s.rq.isEmpty

/-- `q_count` (R27). -/
def State.qCount (s : State) : Nat := s.rq.length

/-- `q_head` (R27): `none` is the undriven output. -/
def State.qHead (s : State) : Option AckPacket := s.rq.head?

/-- The ready queue has no room: `RQ_DEPTH != ∞ and len(rq) = RQ_DEPTH` (R150). -/
def State.queueFull (s : State) : Bool :=
  match s.params.rqDepth with
  | none => false
  | some d => decide (s.rq.length = d)

end Sys2Proof.Machine
end

