-- ==== Sys2Proof/Machine/Scan.lean ====
section
/-! DEFINITION. The scan of the front of the buffer that one iteration of resolve makes (41_decoder R146 to R151), and the
sub-state that is a function of the buffer (10_state R24, R25). -/

namespace Sys2Proof.Machine

/-- What one iteration of the resolve loop finds at the front of the buffer (R146), with the bytes it leaves. The three
dropping cases are the silent events of R180. -/
inductive Scan where
  | wait                                            -- return: a decision needs a byte not yet present
  | badByte (rest : List Byte)                      -- BadByte (R147, R148)
  | badSize (rest : List Byte)                      -- BadSize (R149)
  | mismatch (rest : List Byte)                     -- ChecksumMismatch (R151)
  | packet (p : AckPacket) (rest : List Byte)       -- a valid frame (R150)
deriving DecidableEq, Repr

/-- One iteration of the resolve loop, up to the push (R146). -/
def scan (P : Params) : List Byte → Scan
  | [] => .wait
  | b0 :: t0 =>
    if b0 ≠ P.hdr0 then .badByte t0
    else
      match t0 with
      | [] => .wait
      | b1 :: t1 =>
        if b1 ≠ P.hdr1 then .badByte (b1 :: t1)
        else
          match t1 with
          | [] => .wait
          | size :: t2 =>
            if size.toNat < P.minSize then .badSize t2
            else if t2.length + 3 < size.toNat then .wait
            else
              match parseFrame P.cksumMask ((b0 :: b1 :: size :: t2).take size.toNat) with
              | some p => .packet p ((b0 :: b1 :: size :: t2).drop size.toNat)
              | none => .mismatch (b1 :: size :: t2)

/-- The source's sub-states (R24, R158). `awaitingBody 0` is a complete candidate whose checksums hold, about to be pushed;
`invalidSkip` is an iteration that drops bytes (R25). Neither is a sub-state at rest. -/
inductive SubState where
  | idle
  | seenHeader
  | awaitingSize
  | awaitingBody (remaining : Nat)
  | invalidSkip
deriving DecidableEq, Repr

/-- The sub-state as a function of the buffer (R24, R25, R158). -/
def subState (P : Params) (buf : List Byte) : SubState :=
  match scan P buf with
  | .wait =>
    match buf with
    | [] => .idle
    | [_] => .seenHeader
    | [_, _] => .awaitingSize
    | _ :: _ :: size :: t => .awaitingBody (size.toNat - (t.length + 3))
  | .packet _ _ => .awaitingBody 0
  | .badByte _ => .invalidSkip
  | .badSize _ => .invalidSkip
  | .mismatch _ => .invalidSkip

end Sys2Proof.Machine
end

