-- ==== Sys2Proof/Machine/Ops.lean ====
section
/-! DEFINITION. The shared operations over the decoder's storage and the output port: append, drop, push (41_decoder R141,
R146, R150), the resolve loop, raising the QueueOverflow fault and the RESET that clears it (60_exceptions R186), and the two
shapes of a transaction, encoder and decoder. -/

namespace Sys2Proof.Machine

/-- What a step answers (00_scope R13). -/
abbrev Result := Host.Outcome State Fault Refusal

/-- The output port carries `r`. -/
def State.respond (s : State) (r : Response) : State := { s with out := r }

/-- `buf <- b`. -/
def State.setBuf (s : State) (b : List Byte) : State := { s with buf := b }

/-- `rq.push(p)` (R11). -/
def State.enqueue (s : State) (p : AckPacket) : State := { s with rq := s.rq ++ [p] }

/-- Taking the QueueOverflow fault: `faulted <- 1`; `rq` and `buf` keep the values they had before the push (R186). -/
def State.raiseQueueOverflow (s : State) : State := { s with faulted := true }

/-- The RESET of the decoder, which also returns from the fault (R157, R186). -/
def State.resetDecoder (s : State) : State := { s with buf := [], rq := [], faulted := false }

/-- The resolve loop (R146), for at most `n` iterations. -/
def resolveLoop : Nat → State → State
  | 0, s => s
  | n + 1, s =>
    match scan s.params s.buf with
    | .wait => s
    | .badByte rest => resolveLoop n (s.setBuf rest)
    | .badSize rest => resolveLoop n (s.setBuf rest)
    | .mismatch rest => resolveLoop n (s.setBuf rest)
    | .packet p rest => if s.queueFull then s.raiseQueueOverflow else resolveLoop n ((s.enqueue p).setBuf rest)

/-- `resolve()` (R146): every iteration that goes on drops a byte, so the length of the buffer bounds their number. -/
def State.resolve (s : State) : State := resolveLoop s.buf.length s

/-- `FEEDB(b)` on the decoder's storage (R141). -/
def State.feedByte (s : State) (b : Byte) : State := (s.setBuf (s.buf ++ [b])).resolve

/-- `FEED` as FEEDB of each byte in order (R142). A decoder that faults takes none of the bytes after (R140, R186). -/
def State.feedBytes : State → List Byte → State
  | s, [] => s
  | s, b :: bs =>
    let t := s.feedByte b
    if t.faulted then t else t.feedBytes bs

/-- A decoder transaction: taken only when the decoder is not faulted (R140, R189). -/
def decoderTransaction (s t : State) : Result :=
  if s.faulted then .fault .queueOverflow else .next t

/-- The encoder's answer to a serialized operation: `Ok(Frame(id, cmd, payload))`, or the error and no bytes (R102). -/
def buildResponse (P : Params) (id : Byte) : Serialized → Response
  | .ok (cmd, payload) => .frame (frame P id cmd payload)
  | .error e => .error e

/-- An encoder transaction (R102): refused at the boundary where the interface cannot carry the request (R13), else answered
at the output port. It reads and writes nothing of the decoder (R104). -/
def encoderTransaction (bad : Option Refusal) (id : Byte) (op : Serialized) (s : State) : Result :=
  match bad with
  | some r => .refused r
  | none => .next (s.respond (buildResponse s.params id op))

/-- The interface check of an address operand: in the catalog, in space `sp`, with the operation's flag (R87). -/
def checkAddr (P : Params) (sp : Space) (flag : Bool) (noFlag : Refusal) (a : CatalogAddr) : Option Refusal :=
  if a ∉ P.addrTable then some .notCatalogAddress
  else if a.space ≠ sp then some .wrongSpace
  else if flag = false then some noFlag
  else none

/-- The interface check of a written address (R87). -/
def checkWrite (P : Params) (sp : Space) (a : CatalogAddr) : Option Refusal :=
  checkAddr P sp a.writable .notWritable a

/-- The interface check of a read address (R87). -/
def checkRead (P : Params) (sp : Space) (a : CatalogAddr) : Option Refusal :=
  checkAddr P sp a.readable .notReadable a

/-- The interface check of an IJog's entries (R13, R65). -/
def checkEntries (P : Params) (entries : List JogEntry) : Option Refusal :=
  if entries.length ≤ P.ijogMaxEntries then none else some .tooManyEntries

end Sys2Proof.Machine
end

