-- ==== Sys2Proof/Machine/Decoder.lean ====
section
/-! DEFINITION. The meanings of the five decoder transactions (41_decoder R141, R142, R144, R145, R157). -/

namespace Sys2Proof.Machine

/-- `FEEDB b` (R141). -/
def execFeedb (b : Byte) (s : State) : Result :=
  decoderTransaction s ((s.feedByte b).respond .silent)

/-- `FEED [b_0, …]` (R142). -/
def execFeed (bytes : List Byte) (s : State) : Result :=
  decoderTransaction s ((s.feedBytes bytes).respond .silent)

/-- `POP` (R144): `None` on an empty queue, else its front. -/
def execPop (s : State) : Result :=
  decoderTransaction s <|
    match s.rq with
    | [] => s.respond (.popped none)
    | p :: ps => { s with rq := ps, out := .popped (some p) }

/-- `DRAIN` (R145): every packet of the queue in order, which ends empty. -/
def execDrain (s : State) : Result :=
  decoderTransaction s { s with rq := [], out := .drained s.rq }

/-- `RESET` (R157), which a faulted decoder takes too (R186, R189). -/
def execReset (s : State) : Result :=
  .next (s.resetDecoder.respond .silent)

end Sys2Proof.Machine
end

