-- ==== Sys2Proof/Machine/Encoder.lean ====
section
/-! DEFINITION. The meanings of the nine encoder operations (40_encoder R105 to R113). -/

namespace Sys2Proof.Machine

/-- `ENC id WriteRam(a, v)` (R105). -/
def execWriteRam (id : Byte) (a : CatalogAddr) (v : WriteValue) (s : State) : Result :=
  encoderTransaction (checkWrite s.params .ram a) id (serializeWriteRam s.params a v) s

/-- `ENC id WriteEep(a, v)` (R106). -/
def execWriteEep (id : Byte) (a : CatalogAddr) (v : WriteValue) (s : State) : Result :=
  encoderTransaction (checkWrite s.params .eep a) id (serializeWriteEep s.params a v) s

/-- `ENC id ReadRam(a)` (R107). -/
def execReadRam (id : Byte) (a : CatalogAddr) (s : State) : Result :=
  encoderTransaction (checkRead s.params .ram a) id (serializeReadRam s.params a) s

/-- `ENC id ReadEep(a)` (R108). -/
def execReadEep (id : Byte) (a : CatalogAddr) (s : State) : Result :=
  encoderTransaction (checkRead s.params .eep a) id (serializeReadEep s.params a) s

/-- `ENC id SJog(pt, mode, color, tid)` (R109). -/
def execSJog (id pt : Byte) (mode : JogMode) (color : JogColor) (tid : Byte) (s : State) : Result :=
  encoderTransaction none id (serializeSJog s.params pt mode color tid) s

/-- `ENC id IJog(e_1, …, e_n)` (R110). -/
def execIJog (id : Byte) (entries : List JogEntry) (s : State) : Result :=
  encoderTransaction (checkEntries s.params entries) id (serializeIJog s.params entries) s

/-- `ENC id Stat` (R111). -/
def execStat (id : Byte) (s : State) : Result :=
  encoderTransaction none id (serializeStat s.params) s

/-- `ENC id Reboot` (R112). -/
def execReboot (id : Byte) (s : State) : Result :=
  encoderTransaction none id (serializeReboot s.params) s

/-- `ENC id AckPolicy(p)` (R113), with the catalog's `ACK_POLICY_RAM` (R79). -/
def execAckPolicy (id p : Byte) (s : State) : Result :=
  match s.params.ackPolicyRam with
  | none => .refused .noAckPolicyRegister
  | some a => encoderTransaction none id (serializeAckPolicy s.params a p) s

end Sys2Proof.Machine
end

