-- ==== Sys2Proof/Machine/Dispatch.lean ====
section
/-! DEFINITION. One arm per transaction, each one direct call of its meaning. -/

namespace Sys2Proof.Machine

def exec (i : Instr) (s : State) : Host.Outcome State Fault Refusal :=
  match i with
  | .writeRam id a v => Sys2Proof.Machine.execWriteRam id a v s
  | .writeEep id a v => Sys2Proof.Machine.execWriteEep id a v s
  | .readRam id a => Sys2Proof.Machine.execReadRam id a s
  | .readEep id a => Sys2Proof.Machine.execReadEep id a s
  | .sJog id pt mode color tid => Sys2Proof.Machine.execSJog id pt mode color tid s
  | .iJog id entries => Sys2Proof.Machine.execIJog id entries s
  | .stat id => Sys2Proof.Machine.execStat id s
  | .reboot id => Sys2Proof.Machine.execReboot id s
  | .ackPolicy id p => Sys2Proof.Machine.execAckPolicy id p s
  | .feedb b => Sys2Proof.Machine.execFeedb b s
  | .feed bytes => Sys2Proof.Machine.execFeed bytes s
  | .pop => Sys2Proof.Machine.execPop s
  | .drain => Sys2Proof.Machine.execDrain s
  | .reset => Sys2Proof.Machine.execReset s

end Sys2Proof.Machine
end

