-- ==== Sys2Proof/Machine/Step.lean ====
section
/-! DEFINITION. One step: the oldest transaction the host presents, or nothing (00_scope R6, 20_memory R54). -/

namespace Sys2Proof.Machine

/-- At most one transaction happens in a step (R6). With none presented the block idles: it never waits for the host and
nothing changes (R191; log entry 2). -/
def step (s : State) : Host.Outcome State Fault Refusal :=
  match s.input with
  | [] => .next s
  | i :: rest => exec i { s with input := rest }

/-- `s` with the transaction of an opcode-table word presented next, before whatever the host presents after it. -/
def State.withFetchWord (s : State) (nbits w : Nat) : State :=
  match decodeTableWord nbits w with
  | some i => { s with input := i :: s.input }
  | none => s

end Sys2Proof.Machine
end

