-- ==== Sys2Proof/Safety.lean ====
section
/-! DEFINITION. The terms claims are stated in: the at-rest invariant of the buffer (10_state R26), the invariant of the
state, the resolve loop as a relation read off 41_decoder R146, well-framed byte sequences (40_encoder R114), and runs of
several transactions. -/

namespace Sys2Proof.Machine

/-- The invariant of the buffer at rest (R26). -/
def atRest (P : Params) : List Byte → Bool
  | [] => true
  | [b0] => decide (b0 = P.hdr0)
  | [b0, b1] => decide (b0 = P.hdr0) && decide (b1 = P.hdr1)
  | b0 :: b1 :: size :: t =>
    decide (b0 = P.hdr0) && decide (b1 = P.hdr1) && decide (P.minSize ≤ size.toNat) && decide (t.length + 3 < size.toNat)

/-- The ranges and relations the spec gives the decoder's state between transactions: R8 for the values it fixes, R26 for a
decoder that has not faulted, R22 and R23 for the lengths, R186 for a faulted one (a full queue, and the frame not pushed at
the front). -/
def State.Inv (s : State) : Prop :=
  s.params.Fixed ∧
  (s.faulted = false → atRest s.params s.buf = true) ∧
  s.buf.length ≤ s.params.bufDepth ∧
  (∀ d, s.params.rqDepth = some d → s.rq.length ≤ d) ∧
  (∀ p ∈ s.rq, p.payload.length ≤ maxPayload) ∧
  (s.faulted = true → s.queueFull = true ∧ ∃ p rest, scan s.params s.buf = .packet p rest)

/-- The queue of length `n` is full (R150): never, when `RQ_DEPTH` is unbounded. -/
def fullAt (P : Params) (n : Nat) : Prop := P.rqDepth = some n

/-- The resolve loop read arm by arm off R146: from a buffer and a queue, the loop ends with this buffer, this queue and this
`faulted` bit. It names no scan and no fuel. -/
inductive ResolvesTo (P : Params) :
    List Byte → List AckPacket → List Byte → List AckPacket → Bool → Prop
  /-- `len(buf) = 0: return` -/
  | idle (q : List AckPacket) : ResolvesTo P [] q [] q false
  /-- `buf[0] != HDR0: buf <- buf[1:]` (R147) -/
  | badFirst {b : Byte} {rest B : List Byte} {q Q : List AckPacket} {f : Bool} :
      b ≠ P.hdr0 → ResolvesTo P rest q B Q f → ResolvesTo P (b :: rest) q B Q f
  /-- `len(buf) < 2: return` -/
  | seenHeader (q : List AckPacket) : ResolvesTo P [P.hdr0] q [P.hdr0] q false
  /-- `buf[1] != HDR1: buf <- buf[1:]` (R148) -/
  | badSecond {b : Byte} {rest B : List Byte} {q Q : List AckPacket} {f : Bool} :
      b ≠ P.hdr1 → ResolvesTo P (b :: rest) q B Q f → ResolvesTo P (P.hdr0 :: b :: rest) q B Q f
  /-- `len(buf) < 3: return` -/
  | awaitingSize (q : List AckPacket) : ResolvesTo P [P.hdr0, P.hdr1] q [P.hdr0, P.hdr1] q false
  /-- `s < MIN_SIZE: buf <- buf[3:]` (R149) -/
  | badSize {size : Byte} {rest B : List Byte} {q Q : List AckPacket} {f : Bool} :
      size.toNat < P.minSize → ResolvesTo P rest q B Q f → ResolvesTo P (P.hdr0 :: P.hdr1 :: size :: rest) q B Q f
  /-- `len(buf) < s: return` -/
  | awaitingBody {size : Byte} {rest : List Byte} (q : List AckPacket) :
      P.minSize ≤ size.toNat → (P.hdr0 :: P.hdr1 :: size :: rest).length < size.toNat →
      ResolvesTo P (P.hdr0 :: P.hdr1 :: size :: rest) q (P.hdr0 :: P.hdr1 :: size :: rest) q false
  /-- `valid(f)`: push, `buf <- buf[s:]` (R150) -/
  | valid {size id cmd k1 k2 : Byte} {payload rest B : List Byte} {q Q : List AckPacket} {f : Bool} :
      P.minSize ≤ size.toNat → size.toNat = 7 + payload.length →
      k1 = checksum1 P.cksumMask size id cmd payload → k2 = ~~~k1 &&& P.cksumMask →
      ¬ fullAt P q.length →
      ResolvesTo P rest (q ++ [⟨id, cmd, payload⟩]) B Q f →
      ResolvesTo P ([P.hdr0, P.hdr1, size, id, cmd, k1, k2] ++ payload ++ rest) q B Q f
  /-- `valid(f)` and no room: `fault QueueOverflow` (R150, R186) -/
  | overflow {size id cmd k1 k2 : Byte} {payload rest : List Byte} {q : List AckPacket} :
      P.minSize ≤ size.toNat → size.toNat = 7 + payload.length →
      k1 = checksum1 P.cksumMask size id cmd payload → k2 = ~~~k1 &&& P.cksumMask →
      fullAt P q.length →
      ResolvesTo P ([P.hdr0, P.hdr1, size, id, cmd, k1, k2] ++ payload ++ rest) q
        ([P.hdr0, P.hdr1, size, id, cmd, k1, k2] ++ payload ++ rest) q true
  /-- not `valid(f)`: `buf <- buf[1:]` (R151) -/
  | mismatch {size id cmd k1 k2 : Byte} {payload rest B : List Byte} {q Q : List AckPacket} {f : Bool} :
      P.minSize ≤ size.toNat → size.toNat = 7 + payload.length →
      ¬ (k1 = checksum1 P.cksumMask size id cmd payload ∧
          k2 = ~~~(checksum1 P.cksumMask size id cmd payload) &&& P.cksumMask) →
      ResolvesTo P ([P.hdr1, size, id, cmd, k1, k2] ++ payload ++ rest) q B Q f →
      ResolvesTo P ([P.hdr0, P.hdr1, size, id, cmd, k1, k2] ++ payload ++ rest) q B Q f

/-- What every frame of the encoder satisfies (R114), with the length bound of R65. -/
def WellFramed (mask : Byte) (f : List Byte) : Prop :=
  f[0]? = some 0xFF ∧ f[1]? = some 0xFF ∧ f[2]?.map BitVec.toNat = some f.length ∧
  7 ≤ f.length ∧ f.length ≤ 255 ∧ validFrame mask f = true

/-- The transactions one after another (R50), up to the first that has no next state. -/
def runAll : List Instr → State → Result
  | [], s => .next s
  | i :: is, s =>
    match exec i s with
    | .next t => runAll is t
    | .fault r => .fault r
    | .refused r => .refused r

/-- The chunks of a byte stream, one FEED each (R143). -/
def feedChunks (chunks : List (List Byte)) (s : State) : Result := runAll (chunks.map Instr.feed) s

/-- The outcome with its next state changed by `g`. -/
def mapNext (g : State → State) : Result → Result
  | .next t => .next (g t)
  | .fault r => .fault r
  | .refused r => .refused r

/-- The bytes of a received frame whose size byte and checksum bytes are these and whose id, command and payload are `cov`
(R60, R70). -/
def received (size k1 k2 : Byte) (cov : List Byte) : List Byte :=
  [0xFF, 0xFF, size] ++ cov.take 2 ++ [k1, k2] ++ cov.drop 2

/-- A decoder that has received nothing (R30), whatever its parameters and ports. -/
def State.FreshDecoder (s : State) : Prop := s.buf = [] ∧ s.rq = [] ∧ s.faulted = false

end Sys2Proof.Machine
end

