-- ==== Sys2Proof/Certificates/Slice0/Obligations.lean ====
section
/-! DEFINITION. The statements about the block, from the numbered rules of spec/. Every statement ranges over every state, and
so over every value of the parameters of 00_scope R8, unless it says otherwise. `Params.Fixed` is the premise of a statement that
uses the numbers R8 fixes (header bytes FF, FIXED_LEN and MIN_SIZE 7, IJOG_MAX_ENTRIES 49, BUF_DEPTH 255). -/

open Sys2Proof Sys2Proof.Machine

/-! ## Steps, reset and the ports -/

/-- A step takes the oldest presented transaction and nothing else (R6); with none presented it idles (the model's choice, log
entry 2); and the word `withFetchWord` presents is the one the very next step runs. -/
def Obligations.StepRunsPresentedTransaction : Prop :=
  (∀ (s : State) (i : Instr) (rest : List Instr), s.input = i :: rest → step s = exec i { s with input := rest }) ∧
  (∀ s : State, s.input = [] → step s = .next s) ∧
  (∀ (s : State) (nbits w : Nat) (i : Instr), decodeTableWord nbits w = some i →
    step (s.withFetchWord nbits w) = exec i s)

/-- The reset values of R30, after creation and after a RESET transaction in any state, the status outputs among them. -/
def Obligations.ResetValues : Prop :=
  (∀ P : Params, (State.fresh P).FreshDecoder ∧ (State.fresh P).qEmpty = true ∧ (State.fresh P).qCount = 0 ∧
    (State.fresh P).qHead = none ∧ subState P (State.fresh P).buf = .idle) ∧
  State.reset.FreshDecoder ∧
  (∀ s : State, ∃ t, exec .reset s = .next t ∧ t.FreshDecoder ∧ t.qEmpty = true ∧ t.qCount = 0 ∧ t.qHead = none ∧
    subState t.params t.buf = .idle)

/-- No transaction changes a parameter (R31), nor the transactions still presented; a step takes exactly the oldest one.
Rests on log entries 1 and 2. -/
def Obligations.ParametersNeverChange : Prop :=
  (∀ (i : Instr) (s t : State), exec i s = .next t → t.params = s.params ∧ t.input = s.input) ∧
  (∀ s t : State, step s = .next t → t.params = s.params ∧ t.input = s.input.tail)

/-- What the output port holds has no effect on any transaction: it is no state of the block (log entry 3). -/
def Obligations.OutputPortIsNeverRead : Prop :=
  ∀ (i : Instr) (s : State) (o : Response), exec i { s with out := o } = exec i s

/-- The status outputs are the functions of `rq` that R27 gives, and a POP answers what `q_head` drove. -/
def Obligations.StatusOutputs : Prop :=
  (∀ s : State, (s.qEmpty = true ↔ s.rq.length = 0) ∧ s.qCount = s.rq.length ∧
    (s.qEmpty = false → s.qHead = s.rq[0]? ∧ s.qHead ≠ none) ∧ (s.qEmpty = true → s.qHead = none)) ∧
  (∀ s t : State, exec .pop s = .next t → t.out = .popped s.qHead ∧ t.qCount = s.qCount - 1)

/-! ## The frame and its checksums -/

/-- The framer core (R101), with the values R8 fixes: header, size, id, command, both checksums, payload. -/
def Obligations.FramerCore : Prop :=
  ∀ (P : Params) (id cmd : Byte) (payload : List Byte), P.Fixed → payload.length ≤ 248 → ∃ size c1 c2 : Byte,
    frame P id cmd payload = [0xFF, 0xFF, size, id, cmd, c1, c2] ++ payload ∧
    size.toNat = 7 + payload.length ∧
    c1 = (size ^^^ id ^^^ cmd ^^^ payload.foldl (· ^^^ ·) 0) &&& P.cksumMask ∧
    c2 = ~~~c1 &&& P.cksumMask

/-- The algebra of the checksums (R69): fold order and per-step masking do not matter; no bit outside the mask; their XOR is the
mask; under `0xFE` both are even, neither is `0xFF`, and a frame with an odd byte 5 or 6 is never valid. -/
def Obligations.ChecksumAlgebra : Prop :=
  (∀ (mask size id cmd : Byte) (payload l : List Byte), l.Perm (size :: id :: cmd :: payload) →
    l.foldl (· ^^^ ·) 0 &&& mask = checksum1 mask size id cmd payload ∧
    l.foldl (fun acc b => (acc ^^^ b) &&& mask) 0 = checksum1 mask size id cmd payload) ∧
  (∀ (mask size id cmd : Byte) (payload : List Byte), let c1 := checksum1 mask size id cmd payload
    c1 &&& ~~~mask = 0 ∧ checksum2 mask c1 &&& ~~~mask = 0 ∧ c1 ^^^ checksum2 mask c1 = mask) ∧
  (∀ (size id cmd : Byte) (payload : List Byte), let c1 := checksum1 0xFE size id cmd payload
    c1.getLsbD 0 = false ∧ (checksum2 0xFE c1).getLsbD 0 = false ∧ c1 ≠ 0xFF ∧ checksum2 0xFE c1 ≠ 0xFF) ∧
  (∀ (f : List Byte) (b : Byte), b.getLsbD 0 = true → (f[5]? = some b ∨ f[6]? = some b) → validFrame 0xFE f = false)

/-- What the checksum detects (R70): with the size byte unchanged and bytes 5 and 6 intact, a change of the covered bytes to
`cov'` is accepted exactly when the XOR of all the changes is zero inside the mask, and then the packet has the changed content.
Under `0xFE` a flip of bit 0 of one covered byte, and under any mask the same flip in two covered bytes, goes undetected. -/
def Obligations.ChecksumBlindSpot : Prop :=
  (∀ (mask : Byte) (cov cov' : List Byte), 2 ≤ cov.length → cov.length ≤ 250 → cov'.length = cov.length →
    let size : Byte := BitVec.ofNat 8 (5 + cov.length)
    let c1 := (size ^^^ xorFold cov) &&& mask
    let f := received size c1 (checksum2 mask c1) cov'
    validFrame mask (received size c1 (checksum2 mask c1) cov) = true ∧
    (validFrame mask f = true ↔ (xorFold cov ^^^ xorFold cov') &&& mask = 0) ∧
    (validFrame mask f = true → ∃ id cmd, cov'.take 2 = [id, cmd] ∧ parseFrame mask f = some ⟨id, cmd, cov'.drop 2⟩)) ∧
  (∀ (cov : List Byte) (k : Nat) (b : Byte), cov[k]? = some b →
    (xorFold cov ^^^ xorFold (cov.set k (b ^^^ 1))) &&& 0xFE = 0) ∧
  (∀ (mask : Byte) (cov : List Byte) (j k : Nat) (b c flip : Byte), j ≠ k → cov[j]? = some b → cov[k]? = some c →
    (xorFold cov ^^^ xorFold ((cov.set j (b ^^^ flip)).set k (c ^^^ flip))) &&& mask = 0)

/-- Every frame the encoder returns has its header, its own length as size byte, at least 7 bytes, and valid checksums (R114). -/
def Obligations.EncoderFramesAreValid : Prop :=
  ∀ (i : Instr) (s t : State) (f : List Byte), s.params.Fixed → exec i s = .next t → t.out = .frame f →
    WellFramed s.params.cksumMask f

/-! ## Operands -/

/-- `JOG_WORD` at its default (R91): a position is passed unchanged; in a speed word bits 13:0 are the speed, bit 14 is the
direction bit and bit 15 is 0. -/
def Obligations.JogWordBits : Prop :=
  ∀ P : Params, P.jogWordLayout = defaultJogWordLayout → (∀ p : Word, jogWord P (.position p) = p) ∧
    (∀ (v : BitVec 14) (dir : Direction), let w := jogWord P (.speed v dir)
      w.extractLsb' 0 14 = v ∧ w.getLsbD 15 = false ∧
      (dir = .clockwise → w.getLsbD 14 = P.dirCwBit) ∧ (dir = .counterClockwise → w.getLsbD 14 = !P.dirCwBit))

/-- `SET_BYTE` at its default (R93), bit by bit. -/
def Obligations.SetByteBits : Prop :=
  ∀ (P : Params) (color : JogColor) (mode : JogMode), P.setByteLayout = defaultSetByteLayout →
    let b := setByte P mode color
    b.getLsbD 0 = false ∧
    (∀ p, mode = .position p → b.getLsbD 1 = false) ∧ (∀ v dir, mode = .speed v dir → b.getLsbD 1 = true) ∧
    b.getLsbD 2 = color.green ∧ b.getLsbD 3 = color.blue ∧ b.getLsbD 4 = color.red ∧
    b.getLsbD 5 = false ∧ b.getLsbD 6 = false ∧ b.getLsbD 7 = false

/-! ## Encoder operations: each result is the whole next state, so it is also the frame and the completion -/

/-- `WriteRam` (R105): offset, length byte where the block sends one, little-endian value; the error exactly when the widths
differ; the rule's examples. -/
def Obligations.WriteRamResult : Prop :=
  (∀ (s : State) (id : Byte) (a : CatalogAddr), a ∈ s.params.addrTable → a.space = .ram → a.writable = true →
    (∀ b : Byte, a.w = .one → exec (.writeRam id a (.byte b)) s = .next { s with
      out := .frame (frame s.params id s.params.cmd.ramWrite
        ([a.off] ++ (if s.params.writeLenField then [1] else []) ++ [b])) }) ∧
    (∀ v : Word, a.w = .two → exec (.writeRam id a (.word v)) s = .next { s with
      out := .frame (frame s.params id s.params.cmd.ramWrite
        ([a.off] ++ (if s.params.writeLenField then [2] else []) ++ [v.extractLsb' 0 8, v.extractLsb' 8 8])) }) ∧
    (∀ b : Byte, a.w = .two →
      exec (.writeRam id a (.byte b)) s = .next { s with out := .error .addressWidthMismatch }) ∧
    (∀ v : Word, a.w = .one →
      exec (.writeRam id a (.word v)) s = .next { s with out := .error .addressWidthMismatch })) ∧
  (∀ s : State, s.params = Params.default →
    exec (.writeRam 0x60 ⟨.torqueControl, .ram, 0x34, .one, true, true⟩ (.byte 0x60)) s = .next { s with
      out := .frame [0xFF, 0xFF, 0x09, 0x60, 0x03, 0x3E, 0xC0, 0x34, 0x60] } ∧
    exec (.writeRam 0x01 ⟨.positionKpRam, .ram, 0x18, .two, true, true⟩ (.word 0x01F4)) s = .next { s with
      out := .frame [0xFF, 0xFF, 0x0A, 0x01, 0x03, 0xE4, 0x1A, 0x18, 0xF4, 0x01] } ∧
    exec (.writeRam 0x60 ⟨.torqueControl, .ram, 0x34, .one, true, true⟩ (.word 0x0060)) s = .next { s with
      out := .error .addressWidthMismatch })

/-- `WriteEep` (R106), with the rule's example. -/
def Obligations.WriteEepResult : Prop :=
  (∀ (s : State) (id : Byte) (a : CatalogAddr), a ∈ s.params.addrTable → a.space = .eep → a.writable = true →
    (∀ b : Byte, a.w = .one → exec (.writeEep id a (.byte b)) s = .next { s with
      out := .frame (frame s.params id s.params.cmd.eepWrite
        ([a.off] ++ (if s.params.writeLenField then [1] else []) ++ [b])) }) ∧
    (∀ v : Word, a.w = .two → exec (.writeEep id a (.word v)) s = .next { s with
      out := .frame (frame s.params id s.params.cmd.eepWrite
        ([a.off] ++ (if s.params.writeLenField then [2] else []) ++ [v.extractLsb' 0 8, v.extractLsb' 8 8])) }) ∧
    (∀ b : Byte, a.w = .two →
      exec (.writeEep id a (.byte b)) s = .next { s with out := .error .addressWidthMismatch }) ∧
    (∀ v : Word, a.w = .one →
      exec (.writeEep id a (.word v)) s = .next { s with out := .error .addressWidthMismatch })) ∧
  (∀ s : State, s.params = Params.default →
    exec (.writeEep 0xFD ⟨.idEep, .eep, 0x06, .one, true, true⟩ (.byte 0x20)) s = .next { s with
      out := .frame [0xFF, 0xFF, 0x09, 0xFD, 0x01, 0xD2, 0x2C, 0x06, 0x20] })

/-- `ReadRam` (R107), with the rule's example. -/
def Obligations.ReadRamResult : Prop :=
  (∀ (s : State) (id : Byte) (a : CatalogAddr), a ∈ s.params.addrTable → a.space = .ram → a.readable = true →
    (a.w = .one → exec (.readRam id a) s = .next { s with
      out := .frame (frame s.params id s.params.cmd.ramRead [a.off, 1]) }) ∧
    (a.w = .two → exec (.readRam id a) s = .next { s with
      out := .frame (frame s.params id s.params.cmd.ramRead [a.off, 2]) })) ∧
  (∀ s : State, s.params = Params.default →
    exec (.readRam 0xFD ⟨.absolutePosition, .ram, 0x3C, .two, true, false⟩) s = .next { s with
      out := .frame [0xFF, 0xFF, 0x09, 0xFD, 0x04, 0xCE, 0x30, 0x3C, 0x02] })

/-- `ReadEep` (R108), with the rule's example. -/
def Obligations.ReadEepResult : Prop :=
  (∀ (s : State) (id : Byte) (a : CatalogAddr), a ∈ s.params.addrTable → a.space = .eep → a.readable = true →
    (a.w = .one → exec (.readEep id a) s = .next { s with
      out := .frame (frame s.params id s.params.cmd.eepRead [a.off, 1]) }) ∧
    (a.w = .two → exec (.readEep id a) s = .next { s with
      out := .frame (frame s.params id s.params.cmd.eepRead [a.off, 2]) })) ∧
  (∀ s : State, s.params = Params.default →
    exec (.readEep 0xFD ⟨.baudRate, .eep, 0x04, .one, true, true⟩) s = .next { s with
      out := .frame [0xFF, 0xFF, 0x09, 0xFD, 0x02, 0xF2, 0x0C, 0x04, 0x01] })

/-- `SJog` (R109): the playtime and the first `SJOG_BLOCK_WIDTH` bytes of one sub-block, `target_id` and position unchecked (by
the default `JOG_WORD`, `0xFFFF` gives `FF FF`); a 5-byte payload and a 12-byte frame for width 4; the rule's example. -/
def Obligations.SJogResult : Prop :=
  (∀ (s : State) (id pt tid : Byte) (mode : JogMode) (color : JogColor), let w := jogWord s.params mode
    exec (.sJog id pt mode color tid) s = .next { s with
      out := .frame (frame s.params id s.params.cmd.sJog
        (pt :: [w.extractLsb' 0 8, w.extractLsb' 8 8, setByte s.params mode color, tid, pt].take s.params.sjogBlockWidth)) } ∧
    (s.params.jogWordLayout = defaultJogWordLayout → mode = .position 0xFFFF →
      w.extractLsb' 0 8 = (0xFF : Byte) ∧ w.extractLsb' 8 8 = (0xFF : Byte)) ∧
    (s.params.sjogBlockWidth = 4 → ∃ payload, payload.length = 5 ∧
      (frame s.params id s.params.cmd.sJog payload).length = 12 ∧
      exec (.sJog id pt mode color tid) s = .next { s with
        out := .frame (frame s.params id s.params.cmd.sJog payload) })) ∧
  (∀ s : State, s.params = Params.default →
    exec (.sJog 0xFD 0x3C (.position 512) ⟨true, false, false⟩ 0xFD) s = .next { s with
      out := .frame [0xFF, 0xFF, 0x0D, 0xFD, 0x06, 0x0C, 0xF2, 0x3C, 0x00, 0x02, 0x04, 0xFD, 0x3C] })

/-- `IJog` (R110): one 5-byte block per entry in request order; no entries give a 7-byte frame, `IJOG_MAX_ENTRIES`, 49 in the
spec's block, a 252-byte one, and more are no request; the rule's example. -/
def Obligations.IJogResult : Prop :=
  (∀ (s : State) (id : Byte) (es : List JogEntry), es.length ≤ s.params.ijogMaxEntries →
    let payload := es.flatMap fun e => [(jogWord s.params e.mode).extractLsb' 0 8, (jogWord s.params e.mode).extractLsb' 8 8,
      setByte s.params e.mode e.color, e.targetId, e.playtime]
    exec (.iJog id es) s = .next { s with out := .frame (frame s.params id s.params.cmd.iJog payload) } ∧
    (frame s.params id s.params.cmd.iJog payload).length = 7 + 5 * es.length) ∧
  (∀ (s : State) (id : Byte) (es : List JogEntry), s.params.ijogMaxEntries < es.length →
    exec (.iJog id es) s = .refused .tooManyEntries) ∧
  Params.default.ijogMaxEntries = 49 ∧
  (∀ s : State, s.params = Params.default →
    exec (.iJog 0xFE [⟨0x3C, .position 512, ⟨true, false, false⟩, 0x01⟩, ⟨0x1E, .position 1023, ⟨false, false, true⟩, 0x02⟩]) s =
      .next { s with out := .frame [0xFF, 0xFF, 0x11, 0xFE, 0x05, 0x20, 0xDE, 0x00, 0x02, 0x04, 0x01, 0x3C, 0xFF, 0x03,
        0x10, 0x02, 0x1E] })

/-- `Stat` (R111): a 7-byte frame with an empty payload, with the rule's examples. -/
def Obligations.StatResult : Prop :=
  (∀ (s : State) (id : Byte), s.params.Fixed →
    let c1 := ((7 : Byte) ^^^ id ^^^ s.params.cmd.stat) &&& s.params.cksumMask
    exec (.stat id) s = .next { s with
      out := .frame [0xFF, 0xFF, 7, id, s.params.cmd.stat, c1, ~~~c1 &&& s.params.cksumMask] }) ∧
  (∀ s : State, s.params = Params.default →
    exec (.stat 0xFD) s = .next { s with out := .frame [0xFF, 0xFF, 0x07, 0xFD, 0x07, 0xFC, 0x02] } ∧
    exec (.stat 0x00) s = .next { s with out := .frame [0xFF, 0xFF, 0x07, 0x00, 0x07, 0x00, 0xFE] })

/-- `Reboot` (R112): a 7-byte frame with an empty payload; under mask `0xFE` the ids `0xFE` and `0xFF` give the same checksum
bytes; the rule's examples. -/
def Obligations.RebootResult : Prop :=
  (∀ (s : State) (id : Byte), s.params.Fixed →
    let c1 := ((7 : Byte) ^^^ id ^^^ s.params.cmd.reboot) &&& s.params.cksumMask
    exec (.reboot id) s = .next { s with
      out := .frame [0xFF, 0xFF, 7, id, s.params.cmd.reboot, c1, ~~~c1 &&& s.params.cksumMask] }) ∧
  (∀ s : State, s.params.Fixed → s.params.cksumMask = 0xFE → ∃ c1 c2 : Byte,
    exec (.reboot 0xFE) s = .next { s with out := .frame [0xFF, 0xFF, 7, 0xFE, s.params.cmd.reboot, c1, c2] } ∧
    exec (.reboot 0xFF) s = .next { s with out := .frame [0xFF, 0xFF, 7, 0xFF, s.params.cmd.reboot, c1, c2] }) ∧
  (∀ s : State, s.params = Params.default →
    exec (.reboot 0xFE) s = .next { s with out := .frame [0xFF, 0xFF, 0x07, 0xFE, 0x09, 0xF0, 0x0E] } ∧
    exec (.reboot 0xFF) s = .next { s with out := .frame [0xFF, 0xFF, 0x07, 0xFF, 0x09, 0xF0, 0x0E] })

/-- `AckPolicy` (R113): the frame of a 1-byte write of any `p` to the catalog's `ACK_POLICY_RAM`, with the rule's example. -/
def Obligations.AckPolicyResult : Prop :=
  (∀ (s : State) (id p : Byte) (a : CatalogAddr), s.params.ackPolicyRam = some a → a.w = .one →
    exec (.ackPolicy id p) s = .next { s with
      out := .frame (frame s.params id s.params.cmd.ramWrite
        ([a.off] ++ (if s.params.writeLenField then [1] else []) ++ [p])) }) ∧
  (∀ s : State, s.params = Params.default →
    exec (.ackPolicy 0xFE 2) s = .next { s with
      out := .frame [0xFF, 0xFF, 0x09, 0xFE, 0x03, 0xF6, 0x08, 0x01, 0x02] })

/-- `AckPolicy(p)` is exactly `WriteRam(ACK_POLICY_RAM, (1, p))` (R79). -/
def Obligations.AckPolicyIsWriteRam : Prop :=
  ∀ (s : State) (id p : Byte), s.params.wf = true → ∃ a, s.params.ackPolicyRam = some a ∧ a.name = .ackPolicyRam ∧
    exec (.ackPolicy id p) s = exec (.writeRam id a (.byte p)) s

/-- The request interface admits only catalog addresses with the right space and flag (R87); any other pairing is refused. -/
def Obligations.RequestInterface : Prop :=
  ∀ (s : State) (id : Byte) (a : CatalogAddr),
    (∀ v, ((∃ t, exec (.writeRam id a v) s = .next t) ↔
        a ∈ s.params.addrTable ∧ a.space = .ram ∧ a.writable = true) ∧
      ((∃ r, exec (.writeRam id a v) s = .refused r) ↔
        ¬ (a ∈ s.params.addrTable ∧ a.space = .ram ∧ a.writable = true))) ∧
    (∀ v, ((∃ t, exec (.writeEep id a v) s = .next t) ↔
        a ∈ s.params.addrTable ∧ a.space = .eep ∧ a.writable = true) ∧
      ((∃ r, exec (.writeEep id a v) s = .refused r) ↔
        ¬ (a ∈ s.params.addrTable ∧ a.space = .eep ∧ a.writable = true))) ∧
    ((∃ t, exec (.readRam id a) s = .next t) ↔ a ∈ s.params.addrTable ∧ a.space = .ram ∧ a.readable = true) ∧
    ((∃ r, exec (.readRam id a) s = .refused r) ↔
      ¬ (a ∈ s.params.addrTable ∧ a.space = .ram ∧ a.readable = true)) ∧
    ((∃ t, exec (.readEep id a) s = .next t) ↔ a ∈ s.params.addrTable ∧ a.space = .eep ∧ a.readable = true) ∧
    ((∃ r, exec (.readEep id a) s = .refused r) ↔
      ¬ (a ∈ s.params.addrTable ∧ a.space = .eep ∧ a.readable = true))

/-- A transaction is refused exactly when the typed interface cannot carry it (R13, R182); every request it can carry is
answered with a frame or with the one error, and changes nothing but the output port (R104). Three of the model's readings are
in it: that a request outside the interface is answered by a refusal (log entry 14, DEDUCED), that this holds of AckPolicy in a
block whose ADDR_TABLE lacks ACK_POLICY_RAM (log entry 21, DESIGN CHOICE), and that a request is answered whether or not the
decoder has faulted (log entry 12, DEDUCED). -/
def Obligations.RefusedExactlyIllFormed : Prop :=
  (∀ (i : Instr) (s : State), (∃ r, exec i s = .refused r) ↔ i.wf s.params = false) ∧
  (∀ (i : Instr) (s : State), i.isRequest = true → i.wf s.params = true →
    (∃ f, exec i s = .next { s with out := .frame f }) ∨ exec i s = .next { s with out := .error .addressWidthMismatch })

/-- `AddressWidthMismatch` is answered exactly by a `WriteRam` or `WriteEep` whose value width is not the address's, and nothing
else is written (R181). -/
def Obligations.WidthMismatchExactly : Prop :=
  ∀ (i : Instr) (s t : State), exec i s = .next t →
    ((∃ e, t.out = .error e) ↔
      ∃ id a v, (i = .writeRam id a v ∨ i = .writeEep id a v) ∧ valueWidth v ≠ a.w) ∧
    (∀ e, t.out = .error e → e = .addressWidthMismatch ∧ t = { s with out := .error .addressWidthMismatch })

/-- The encoder answers from the request and the parameters alone and writes no decoder state (R21, R49, R53): in any other state
of the same block the same request gets the same answer. That a faulted decoder is such a state too is the model's reading (log
entry 12, DEDUCED: R12, R140 and R186 are taken to speak of the decoder only). -/
def Obligations.EncoderIsStateless : Prop :=
  ∀ (i : Instr) (s s' t : State), i.isRequest = true → s'.params = s.params → exec i s = .next t →
    t = { s with out := t.out } ∧ exec i s' = .next { s' with out := t.out }

/-! ## Decoder transactions -/

/-- `FEEDB b` appends the byte and runs the resolve loop of R146 (R141), from every unfaulted state with the values R8 fixes: the
buffer, the queue and the `faulted` bit after it are the ones, and the only ones, the loop's arms reach; the output is empty and
nothing else changes; the decoder is at rest, or has faulted, which needs a finite `RQ_DEPTH`. -/
def Obligations.FeedbRunsResolveLoop : Prop :=
  ∀ (s : State) (b : Byte), s.params.Fixed → s.faulted = false →
    ∃ t, exec (.feedb b) s = .next t ∧
      t = { s with buf := t.buf, rq := t.rq, faulted := t.faulted, out := .silent } ∧
      (∀ B Q f, ResolvesTo s.params (s.buf ++ [b]) s.rq B Q f ↔ B = t.buf ∧ Q = t.rq ∧ f = t.faulted) ∧
      (t.faulted = false → atRest s.params t.buf = true) ∧ (s.params.rqDepth = none → t.faulted = false)

/-- The resolve loop ends from every buffer and every queue, in exactly one way (R146 "so the loop ends"). -/
def Obligations.ResolveLoopTerminates : Prop :=
  ∀ (P : Params) (buf : List Byte) (q : List AckPacket), P.Fixed → ∃ B Q f, ResolvesTo P buf q B Q f ∧
    B <:+ buf ∧ q <+: Q ∧ ∀ B' Q' f', ResolvesTo P buf q B' Q' f' → B' = B ∧ Q' = Q ∧ f' = f

/-- `FEED` is the FEEDBs of its bytes in order (R142): where these all have a step, FEED ends in the state they end in;
`FEED []` changes nothing. -/
def Obligations.FeedIsFeedbSequence : Prop :=
  (∀ (s u : State) (bs : List Byte), s.faulted = false → runAll (bs.map Instr.feedb) s = .next u →
    exec (.feed bs) s = .next { u with out := .silent }) ∧
  (∀ s : State, s.faulted = false → exec (.feed []) s = .next { s with out := .silent })

/-- Every FEED on an unfaulted decoder completes: it ends in the state of the FEEDBs of its bytes up to the last, or up to the byte
at which the decoder faults, after which it takes none (the model's reading of R142 with R186, log entry 13); nothing but the
decoder's three elements and the output changes. -/
def Obligations.FeedAlwaysCompletes : Prop :=
  ∀ (s : State) (bs : List Byte), s.faulted = false → ∃ (t u : State) (k : Nat), exec (.feed bs) s = .next t ∧
    t = { s with buf := t.buf, rq := t.rq, faulted := t.faulted, out := .silent } ∧
    k ≤ bs.length ∧ runAll ((bs.take k).map Instr.feedb) s = .next u ∧ t = { u with out := .silent } ∧
    (k = bs.length ∨ t.faulted = true)

/-- Fragmentation invariance for every byte stream (R143), for the unbounded queue of the spec: whatever the chunks, the packets
pushed and the final buffer are those of one resolve over the old buffer and the concatenation of all bytes fed. -/
def Obligations.FragmentationInvariance : Prop :=
  ∀ (s : State) (chunks : List (List Byte)), s.params.Fixed → s.faulted = false → s.params.rqDepth = none →
    atRest s.params s.buf = true →
    ∃ t new, feedChunks chunks s = .next t ∧ t.rq = s.rq ++ new ∧ t.faulted = false ∧
      ResolvesTo s.params (s.buf ++ chunks.flatten) [] t.buf new false

/-- `POP` (R144): `None` and no change on an empty queue, else the front of the queue, removed. -/
def Obligations.PopResult : Prop :=
  ∀ s : State, s.faulted = false →
    (s.rq = [] → exec .pop s = .next { s with out := .popped none }) ∧
    (∀ p ps, s.rq = p :: ps → exec .pop s = .next { s with rq := ps, out := .popped (some p) })

/-- `DRAIN` is POP repeated until the queue is empty (R145): it answers what the POPs answer, in order, and ends in the state
they end in. -/
def Obligations.DrainIsRepeatedPop : Prop :=
  ∀ s : State, s.faulted = false → ∃ ps t u, exec .drain s = .next t ∧ t = { s with rq := [], out := .drained ps } ∧
    t.qEmpty = true ∧ t.buf = s.buf ∧
    runAll (List.replicate s.rq.length .pop) s = .next u ∧ t = { u with out := .drained ps } ∧
    ps.length = s.rq.length ∧
    ∀ k p, ps[k]? = some p → ∃ v, runAll (List.replicate (k + 1) .pop) s = .next v ∧ v.out = .popped (some p)

/-- `RESET` clears `buf`, `rq` and `faulted` in every state, a faulted one too (R157). -/
def Obligations.ResetResult : Prop :=
  ∀ s : State, exec .reset s = .next { s with buf := [], rq := [], faulted := false, out := .silent }

/-- A faulted decoder takes no transaction but RESET (R140, R189): FEEDB, FEED, POP and DRAIN have no next state. -/
def Obligations.FaultedDecoderIsStuck : Prop :=
  ∀ s : State, s.faulted = true →
    (∀ b, exec (.feedb b) s = .fault .queueOverflow) ∧ (∀ bs, exec (.feed bs) s = .fault .queueOverflow) ∧
    exec .pop s = .fault .queueOverflow ∧ exec .drain s = .fault .queueOverflow ∧
    ∃ t, exec .reset s = .next t ∧ t.faulted = false

/-- A machine fault is answered exactly by a decoder transaction other than RESET on a faulted decoder (R186, R189). -/
def Obligations.FaultsExactlyWhenStuck : Prop :=
  ∀ (i : Instr) (s : State), (∃ r, exec i s = .fault r) ↔ s.faulted = true ∧ i.isRequest = false ∧ i ≠ .reset

/-- `QueueOverflow` (R186): the FEEDB that completes a valid frame while `len(rq) = RQ_DEPTH` sets `faulted` and leaves `rq` and
`buf` as they were before the push; with an unbounded queue no FEEDB faults. -/
def Obligations.QueueOverflowEntry : Prop :=
  (∀ (s : State) (b : Byte) (id cmd : Byte) (payload : List Byte), s.params.Fixed → s.faulted = false →
    atRest s.params s.buf = true → s.params.rqDepth = some s.rq.length → s.buf ++ [b] = frame s.params id cmd payload →
    exec (.feedb b) s = .next { s with buf := s.buf ++ [b], faulted := true, out := .silent }) ∧
  (∀ (s t : State) (b : Byte), s.params.rqDepth = none → exec (.feedb b) s = .next t → t.faulted = false)

/-- The Idle scan (R147): a byte that is not `0xFF` at the front of the buffer is dropped and nothing records it, one such byte or
any number of them. -/
def Obligations.NoiseIsDropped : Prop :=
  (∀ (s : State) (noise : List Byte), s.params.Fixed → s.faulted = false → s.buf = [] → (∀ b ∈ noise, b ≠ 0xFF) →
    exec (.feed noise) s = .next { s with out := .silent }) ∧
  (∀ (P : Params) (b : Byte) (rest B : List Byte) (q Q : List AckPacket) (f : Bool), P.Fixed → b ≠ 0xFF →
    (ResolvesTo P (b :: rest) q B Q f ↔ ResolvesTo P rest q B Q f))

/-- The header match slides by one byte (R148): after one `0xFF` another byte drops only that `0xFF` and is tried as a first
header byte; the first pair is the header; in a run of three the third is the size byte 255. The sub-state AwaitingBody(252) of
that run follows R158 and R205 and exceeds the bound 248 of R24 (log entry 27, DEDUCED). -/
def Obligations.HeaderMatchSlides : Prop :=
  (∀ (P : Params) (b : Byte) (rest B : List Byte) (q Q : List AckPacket) (f : Bool), P.Fixed → b ≠ 0xFF →
    (ResolvesTo P (0xFF :: b :: rest) q B Q f ↔ ResolvesTo P (b :: rest) q B Q f)) ∧
  (∀ s : State, s.params.Fixed → s.faulted = false → s.buf = [] →
    exec (.feed [0xFF, 0xFF]) s = .next { s with buf := [0xFF, 0xFF], out := .silent } ∧
    exec (.feed [0xFF, 0xFF, 0xFF]) s = .next { s with buf := [0xFF, 0xFF, 0xFF], out := .silent } ∧
    subState s.params [0xFF, 0xFF, 0xFF] = .awaitingBody (255 - 3))

/-- A size byte below 7 ends the candidate (R149): header and size byte are dropped and scanning goes on with the byte after;
dropping one byte and rescanning comes to the same. -/
def Obligations.BadSizeIsDropped : Prop :=
  (∀ (s : State) (b : Byte), s.params.Fixed → s.faulted = false → s.buf = [0xFF, 0xFF] → b.toNat < 7 →
    exec (.feedb b) s = .next { s with buf := [], out := .silent }) ∧
  (∀ (P : Params) (size : Byte) (rest B : List Byte) (q Q : List AckPacket) (f : Bool), P.Fixed → size.toNat < 7 →
    (ResolvesTo P (0xFF :: 0xFF :: size :: rest) q B Q f ↔ ResolvesTo P rest q B Q f) ∧
    (ResolvesTo P (0xFF :: size :: rest) q B Q f ↔ ResolvesTo P rest q B Q f))

/-- A complete candidate with a checksum mismatch loses only its first byte (R151), for the unbounded queue: the FEEDB that
completes it ends as if its bytes from the second header byte on had been fed to an empty buffer. -/
def Obligations.CorruptFrameIsRescanned : Prop :=
  ∀ (s : State) (b size : Byte) (tail : List Byte), s.params.Fixed → s.faulted = false → s.params.rqDepth = none →
    s.buf ++ [b] = 0xFF :: 0xFF :: size :: tail → size.toNat = tail.length + 3 → 7 ≤ size.toNat →
    validFrame s.params.cksumMask (s.buf ++ [b]) = false →
    exec (.feedb b) s = exec (.feed (0xFF :: size :: tail)) { s with buf := [] }

/-- Any frame is accepted, whatever its id, command byte and payload, a header pair inside the payload included (R153, R160): on an
idle decoder with room it is delivered at the back of the queue and nothing is left in the buffer. -/
def Obligations.EveryIdAndCommandAccepted : Prop :=
  ∀ (s : State) (id cmd : Byte) (payload : List Byte), s.params.Fixed → s.faulted = false → s.buf = [] →
    s.params.rqDepth ≠ some s.rq.length → payload.length ≤ 248 →
    exec (.feed (frame s.params id cmd payload)) s =
      .next { s with rq := s.rq ++ [⟨id, cmd, payload⟩], out := .silent }

/-- Resynchronisation (R159): noise without `0xFF` around two valid frames delivers exactly those two packets, in order, and leaves
the buffer empty; a single noise `0xFF` just before a frame holds it back. -/
def Obligations.Resynchronisation : Prop :=
  (∀ (s : State) (n1 n2 n3 : Byte) (v1 v2 : AckPacket), s.params.Fixed → s.faulted = false → s.buf = [] →
    s.params.rqDepth = none → n1 ≠ 0xFF → n2 ≠ 0xFF → n3 ≠ 0xFF → v1.payload.length ≤ 248 → v2.payload.length ≤ 248 →
    exec (.feed ([n1, n2] ++ frame s.params v1.id v1.cmd v1.payload ++ [n3] ++
        frame s.params v2.id v2.cmd v2.payload)) s =
      .next { s with rq := s.rq ++ [v1, v2], out := .silent }) ∧
  (∀ (s : State) (id cmd : Byte) (payload : List Byte), s.params.Fixed → s.faulted = false → s.buf = [] →
    payload.length < 247 →
    exec (.feed (0xFF :: frame s.params id cmd payload)) s =
      .next { s with buf := 0xFF :: frame s.params id cmd payload, out := .silent })

/-- A false candidate holds every later byte until its declared size is reached, at most 252 bytes after its size byte, and no
packet is delivered meanwhile (R205). -/
def Obligations.FalseCandidateHolds : Prop :=
  ∀ (s : State) (size : Byte) (tail bs : List Byte), s.params.Fixed → s.faulted = false → s.buf = 0xFF :: 0xFF :: size :: tail →
    7 ≤ size.toNat → s.buf.length + bs.length < size.toNat →
    exec (.feed bs) s = .next { s with buf := s.buf ++ bs, out := .silent } ∧ size.toNat - 3 ≤ 252 ∧
    atRest s.params (s.buf ++ bs) = true

/-- FEEDB and FEED only add packets at the back of the queue (R50, R154): a packet already delivered keeps its place. -/
def Obligations.DeliveryOrderIsKept : Prop :=
  ∀ (s t : State), ((∃ b, exec (.feedb b) s = .next t) ∨ (∃ bs, exec (.feed bs) s = .next t)) →
    ∃ new, t.rq = s.rq ++ new ∧ ∀ p ∈ new, p.payload.length ≤ 248

/-- One FEEDB can push two packets: the byte that completes a corrupt candidate completes two frames embedded in it (R155). -/
def Obligations.OneFeedbPushesTwoPackets : Prop :=
  ∃ (s t : State) (b : Byte) (p q : AckPacket), s.params = Params.default ∧ s.faulted = false ∧ atRest s.params s.buf = true ∧
    s.rq = [] ∧ exec (.feedb b) s = .next t ∧ t.rq = [p, q] ∧ t.buf = []

/-- `buf` is hidden state (R29, DV-11): two decoders with equal queues and different buffers answer the same bytes differently. -/
def Obligations.BufferIsHiddenState : Prop :=
  ∃ (s s' t t' : State) (bs : List Byte), s.params = Params.default ∧ s' = { s with buf := [0xFF] } ∧ s.buf = [] ∧
    s.faulted = false ∧ exec (.feed bs) s = .next t ∧ exec (.feed bs) s' = .next t' ∧
    t.rq = s.rq ++ [⟨0xFD, 0x07, []⟩] ∧ t'.rq = s.rq

/-- The sub-state at rest is the function of the buffer that R24 tabulates. Its bound "remaining <= 248" is met only with a
body byte present: right after the size byte 255 the remainder is 252 (log entry 27), so the bound here is 252. -/
def Obligations.SubStateAtRest : Prop :=
  ∀ (P : Params) (buf : List Byte), P.Fixed → atRest P buf = true →
    (buf = [] ∧ subState P buf = .idle) ∨
    (buf = [0xFF] ∧ subState P buf = .seenHeader) ∨
    (buf = [0xFF, 0xFF] ∧ subState P buf = .awaitingSize) ∨
    (∃ size tail, buf = 0xFF :: 0xFF :: size :: tail ∧ buf.length < size.toNat ∧
      subState P buf = .awaitingBody (size.toNat - buf.length) ∧
      1 ≤ size.toNat - buf.length ∧ size.toNat - buf.length ≤ 252)

/-- `InvalidSkip` is never the sub-state at rest (R25): after any FEEDB that does not fault the sub-state is one of the four of
R24, and off rest the sub-state is `invalidSkip` exactly for the dropping iterations. -/
def Obligations.InvalidSkipNeverAtRest : Prop :=
  (∀ (s t : State) (b : Byte), exec (.feedb b) s = .next t → t.faulted = false →
    subState t.params t.buf ≠ .invalidSkip ∧ subState t.params t.buf ≠ .awaitingBody 0) ∧
  (∀ (P : Params) (buf : List Byte), P.Fixed → subState P buf = .invalidSkip →
    atRest P buf = false ∧ ∀ id cmd payload rest, payload.length ≤ 248 → buf ≠ frame P id cmd payload ++ rest)

/-- The transitions of the source's state machine (R158), on an unfaulted decoder. -/
def Obligations.SubStateTransitions : Prop :=
  ∀ (s : State) (b : Byte), s.params.Fixed → s.faulted = false →
    (s.buf = [] → b = 0xFF → exec (.feedb b) s = .next { s with buf := [0xFF], out := .silent }) ∧
    (s.buf = [] → b ≠ 0xFF → exec (.feedb b) s = .next { s with buf := [], out := .silent }) ∧
    (s.buf = [0xFF] → b = 0xFF → exec (.feedb b) s = .next { s with buf := [0xFF, 0xFF], out := .silent }) ∧
    (s.buf = [0xFF] → b ≠ 0xFF → exec (.feedb b) s = .next { s with buf := [], out := .silent }) ∧
    (s.buf = [0xFF, 0xFF] → 7 ≤ b.toNat →
      exec (.feedb b) s = .next { s with buf := [0xFF, 0xFF, b], out := .silent } ∧
      subState s.params [0xFF, 0xFF, b] = .awaitingBody (b.toNat - 3)) ∧
    (s.buf = [0xFF, 0xFF] → b.toNat < 7 → exec (.feedb b) s = .next { s with buf := [], out := .silent }) ∧
    (∀ r, atRest s.params s.buf = true → subState s.params s.buf = .awaitingBody (r + 2) →
      exec (.feedb b) s = .next { s with buf := s.buf ++ [b], out := .silent } ∧
      subState s.params (s.buf ++ [b]) = .awaitingBody (r + 1)) ∧
    (∀ p, atRest s.params s.buf = true → subState s.params s.buf = .awaitingBody 1 →
      parseFrame s.params.cksumMask (s.buf ++ [b]) = some p → s.params.rqDepth ≠ some s.rq.length →
      exec (.feedb b) s = .next { s with buf := [], rq := s.rq ++ [p], out := .silent })

/-- `buf` never holds more than `BUF_DEPTH`, 255 bytes, under FEEDB (R152), and at most 254 at rest. -/
def Obligations.BufferDepthSuffices : Prop :=
  ∀ (s : State) (b : Byte), s.params.Fixed → s.faulted = false → atRest s.params s.buf = true →
    s.params.bufDepth = 255 ∧ s.buf.length ≤ 254 ∧ (s.buf ++ [b]).length ≤ 255 ∧
    ∃ t, exec (.feedb b) s = .next t ∧ t.buf.length ≤ 255 ∧
      (t.faulted = false → atRest s.params t.buf = true ∧ t.buf.length ≤ 254)

/-- The decoder reads nothing of the parameters but the header bytes, `MIN_SIZE`, the checksum mask and the queue depth (R2,
R73): it compares no command byte with `CMD_*` and no id with the catalog. -/
def Obligations.DecoderReadsOnlyFramingAndDepth : Prop :=
  ∀ (i : Instr) (s : State) (P : Params), i.isRequest = false →
    P.hdr0 = s.params.hdr0 → P.hdr1 = s.params.hdr1 → P.minSize = s.params.minSize →
    P.cksumMask = s.params.cksumMask → P.rqDepth = s.params.rqDepth →
    exec i { s with params := P } = mapNext (fun t => { t with params := P }) (exec i s)

/-- `SERVO_MODEL` changes no rule of the encoder or decoder core (R9). -/
def Obligations.ServoModelHasNoEffect : Prop :=
  ∀ (i : Instr) (s : State) (m : ServoModel),
    exec i { s with params := { s.params with servoModel := m } } =
      mapNext (fun t => { t with params := { t.params with servoModel := m } }) (exec i s)

/-- The decoder never resets itself (R201): only RESET clears `faulted`, only POP, DRAIN and RESET take packets from the queue,
and only FEEDB, FEED and RESET change the buffer. -/
def Obligations.NoImplicitReset : Prop :=
  ∀ (i : Instr) (s t : State), exec i s = .next t → i ≠ .reset →
    (s.faulted = true → t.faulted = true) ∧
    (i ≠ .pop → i ≠ .drain → s.rq <+: t.rq) ∧
    ((∀ b, i ≠ .feedb b) → (∀ bs, i ≠ .feed bs) → t.buf = s.buf ∧ t.faulted = s.faulted) ∧
    (i = .pop → t.rq = s.rq.tail)

/-! ## Headline statements -/

/-- Every step keeps the invariant: the values R8 fixes, the buffer at rest (R26) and within its depth (R22), the queue within
its depth, payloads of at most 248 bytes (R23), and a faulted decoder with a full queue and the frame that overflowed at its
front (R186). -/
def Obligations.InvariantKeptByEveryStep : Prop :=
  ∀ s t : State, s.Inv → step s = .next t → t.Inv

/-- The invariant holds at reset, for every block with the values R8 fixes. -/
def Obligations.InvariantAtReset : Prop :=
  State.reset.Inv ∧ ∀ P : Params, P.Fixed → (State.fresh P).Inv

/-- The round trip (R115): a fresh decoder fed the bytes of an encoder's frame, in any chunks, holds exactly one packet with the
frame's id, command byte and payload, and an empty buffer; for every operation, id and mask, and every queue with room for one. -/
def Obligations.RoundTrip : Prop :=
  (∀ (s : State) (id cmd : Byte) (payload : List Byte) (chunks : List (List Byte)), s.params.Fixed →
    s.FreshDecoder → s.params.rqDepth ≠ some 0 → payload.length ≤ 248 → chunks.flatten = frame s.params id cmd payload →
    ∃ t, feedChunks chunks s = .next t ∧ t.rq = [⟨id, cmd, payload⟩] ∧ t.buf = [] ∧ t.faulted = false) ∧
  (∀ (i : Instr) (e e' s : State) (f : List Byte) (chunks : List (List Byte)), exec i e = .next e' → e'.out = .frame f →
    s.params.Fixed → s.FreshDecoder → s.params = e.params → s.params.rqDepth ≠ some 0 → chunks.flatten = f →
    ∃ t id cmd payload, feedChunks chunks s = .next t ∧ serialize e.params i = some (id, .ok (cmd, payload)) ∧
      t.rq = [⟨id, cmd, payload⟩] ∧ t.buf = [] ∧ t.faulted = false)

/-- Decoding an encoded request gives the request back, with the bytes after its frame, in every block of the spec and with every
jog layout that loses no operand (log entry 9); an AckPolicy comes back as the write of `ACK_POLICY_RAM` it is (R79). The decoder
of command frames is the model's own (log entry 17). -/
def Obligations.DecodeEncode : Prop :=
  (∀ (P : Params) (i : Instr) (f rest : List Byte), P.wf = true → (∀ id p, i ≠ .ackPolicy id p) →
    encode P i = some f → decode P (f ++ rest) = .instr i rest) ∧
  (∀ (P : Params) (id p : Byte) (f rest : List Byte), P.wf = true → encode P (.ackPolicy id p) = some f →
    ∃ a, P.ackPolicyRam = some a ∧ decode P (f ++ rest) = .instr (.writeRam id a (.byte p)) rest)

/-- The other direction: what the model's decoder of command frames (log entry 17) accepts is the encoding of a well-formed
request, byte for byte, and the bytes after it. -/
def Obligations.EncodeDecode : Prop :=
  ∀ (P : Params) (bytes rest : List Byte) (i : Instr), P.Fixed → decode P bytes = .instr i rest →
    i.wf P = true ∧ ∃ f, encode P i = some f ∧ bytes = f ++ rest

/-- Frames written out byte by byte from the spec's encodings decode to the requests they stand for (EV-1, EV-10, EV-12, EV-29).
The decoder of command frames is the model's own (log entry 17, DESIGN CHOICE): the spec gives the frames, not their reading. -/
def Obligations.WrittenFramesDecode : Prop :=
  decode Params.vectors [0xFF, 0xFF, 0x09, 0x60, 0x03, 0x3E, 0xC0, 0x34, 0x60] =
    .instr (.writeRam 0x60 ⟨.torqueControl, .ram, 0x34, .one, true, true⟩ (.byte 0x60)) [] ∧
  decode Params.vectors [0xFF, 0xFF, 0x09, 0xFD, 0x01, 0xD2, 0x2C, 0x06, 0x20] =
    .instr (.writeEep 0xFD ⟨.idEep, .eep, 0x06, .one, true, true⟩ (.byte 0x20)) [] ∧
  decode Params.vectors [0xFF, 0xFF, 0x09, 0xFD, 0x04, 0xCE, 0x30, 0x3C, 0x02] =
    .instr (.readRam 0xFD ⟨.absolutePosition, .ram, 0x3C, .two, true, false⟩) [] ∧
  decode Params.vectors [0xFF, 0xFF, 0x07, 0xFD, 0x07, 0xFC, 0x02] = .instr (.stat 0xFD) []

/-- What the encoder's two forms say is one thing: `encode` gives a frame exactly when exec answers that frame, and no frame
exactly when exec refuses the request, which it does when the interface cannot carry it, or answers the one error (R102, R182).
Rests on log entries 14 and 21 for which requests are refused, and on entry 12 for faulted states. -/
def Obligations.EncodeIsWhatExecAnswers : Prop :=
  ∀ (i : Instr) (s : State),
    (∀ f, encode s.params i = some f ↔ exec i s = .next { s with out := .frame f }) ∧
    (i.isRequest = true → (encode s.params i = none ↔
      i.wf s.params = false ∧ (∃ r, exec i s = .refused r) ∨
      i.wf s.params = true ∧ exec i s = .next { s with out := .error .addressWidthMismatch })) ∧
    (i.wf s.params = false → serialize s.params i = none ∧ encode s.params i = none)
end

