-- ==== Sys2Proof/Laws/Frame.lean ====
section
/-! SUPPORT. The frame and its checksums: length, size byte, and what the parser reads from a built frame. -/

namespace Sys2Proof

theorem sizeByte_toNat {P : Params} {payload : List Byte} (hf : P.fixedLen = 7) (h : payload.length ≤ maxPayload) :
    (sizeByte P payload).toNat = 7 + payload.length := by
  simp only [sizeByte, hf, maxPayload, BitVec.toNat_ofNat] at *
  omega

@[simp] theorem frame_length (P : Params) (id cmd : Byte) (payload : List Byte) :
    (frame P id cmd payload).length = 7 + payload.length := by
  simp [frame]; omega

/-- The parser reads a candidate with seven fixed bytes by its two checksum conditions (R68). -/
theorem parseFrame_cons (mask h0 h1 size id cmd k1 k2 : Byte) (payload : List Byte) :
    parseFrame mask (h0 :: h1 :: size :: id :: cmd :: k1 :: k2 :: payload) =
      if k1 = checksum1 mask size id cmd payload ∧ k2 = checksum2 mask k1 then some ⟨id, cmd, payload⟩ else none := rfl

/-- A built frame parses to its own fields (R101, R68). -/
@[simp] theorem parseFrame_frame (P : Params) (id cmd : Byte) (payload : List Byte) :
    parseFrame P.cksumMask (frame P id cmd payload) = some ⟨id, cmd, payload⟩ := by
  simp [frame, parseFrame]

/-- A candidate that parses has its packet's fields and both checksums in place (R60, R68). -/
theorem parseFrame_eq_some {mask : Byte} {f : List Byte} {p : AckPacket} (h : parseFrame mask f = some p) :
    ∃ h0 h1 size k1, f = h0 :: h1 :: size :: p.id :: p.cmd :: k1 :: checksum2 mask k1 :: p.payload ∧
      k1 = checksum1 mask size p.id p.cmd p.payload := by
  unfold parseFrame at h
  split at h
  · rename_i h0 h1 size id cmd k1 k2 payload
    split at h
    · rename_i hk
      cases h
      exact ⟨h0, h1, size, k1, by rw [← hk.2], hk.1⟩
    · cases h
  · cases h

theorem parseFrame_payload_length {mask : Byte} {f : List Byte} {p : AckPacket} (h : parseFrame mask f = some p) :
    f.length = 7 + p.payload.length := by
  obtain ⟨h0, h1, size, k1, rfl, -⟩ := parseFrame_eq_some h
  simp; omega

/-- `xor_fold` of a concatenation (R12). -/
@[simp] theorem xorFold_append (a b : List Byte) : xorFold (a ++ b) = xorFold a ^^^ xorFold b := by
  induction a with
  | nil => simp [xorFold]
  | cons x xs ih => simp [xorFold, ih, BitVec.xor_assoc]

end Sys2Proof
end

