-- ==== Sys2Proof/Laws/Operands.lean ====
section
/-! SUPPORT. The jog word and the SET byte bit by bit, for every layout, and that reading them back gives the operands wherever
the layouts lose none (30_encoding R90 to R93). -/

namespace Sys2Proof

/-- The bits of a number written from a list of bits are the list's. -/
theorem testBit_natOfBits (l : List Bool) (i : Nat) : (natOfBits l).testBit i = l.getD i false := by
  induction l generalizing i with
  | nil => simp [natOfBits]
  | cons b l ih =>
    cases i with
    | zero => cases b <;> simp [natOfBits, Nat.testBit_zero]
    | succ i =>
      rw [Nat.testBit_succ, natOfBits, show (b.toNat + 2 * natOfBits l) / 2 = natOfBits l by cases b <;> simp; omega, ih]
      simp

/-- The bits of a vector written from a list of bits are the list's. -/
theorem getLsbD_natOfBits (w : Nat) (l : List Bool) (i : Nat) :
    (BitVec.ofNat w (natOfBits l)).getLsbD i = (decide (i < w) && l.getD i false) := by
  simp [BitVec.getLsbD_ofNat, testBit_natOfBits]

/-- A vector written from the list of its own bits. -/
theorem ofNat_natOfBits_range {w : Nat} (v : BitVec w) (f : Nat → Bool) (h : ∀ i < w, f i = v.getLsbD i) :
    BitVec.ofNat w (natOfBits ((List.range w).map f)) = v := by
  apply BitVec.eq_of_getLsbD_eq
  intro i hi
  rw [getLsbD_natOfBits, ← h i hi]
  simp [hi]

/-- The bit of a vector written by a layout, at the place of a source that the layout names. -/
theorem getLsbD_layout {α : Type} [DecidableEq α] {w : Nat} {layout : List α} {src : α} (bit : α → Bool)
    (h : src ∈ layout) (hl : layout.length = w) :
    (BitVec.ofNat w (natOfBits (layout.map bit))).getLsbD (layout.idxOf src) = bit src := by
  have hi : layout.idxOf src < layout.length := List.idxOf_lt_length_of_mem h
  rw [getLsbD_natOfBits]
  simp [← hl, hi]

/-- A direction is read back from its `dirbit` (R91). -/
theorem decodeDir_dirBit (P : Params) (dir : Direction) : decodeDir P (dirBit P dir) = dir := by
  cases dir <;> simp [decodeDir, dirBit]

/-- A jog mode is read back from its jog word, in every layout that carries it whole (R90, R91). -/
theorem readJogMode_jogWord {P : Params} (h : P.jogWordLayout.carriesAll = true) (mode : JogMode) :
    readJogMode P (modeBit mode) (jogWord P mode) = mode := by
  simp only [JogWordLayout.carriesAll, Bool.and_eq_true, decide_eq_true_eq, List.all_eq_true, List.mem_range] at h
  obtain ⟨⟨⟨⟨hpl, hp⟩, hsl⟩, hs⟩, hd⟩ := h
  cases mode with
  | position p =>
    simp only [modeBit, readJogMode, Bool.false_eq_true, if_false, jogWord, JogMode.position.injEq]
    exact ofNat_natOfBits_range _ _ fun i hi => getLsbD_layout _ (hp i hi) hpl
  | speed v dir =>
    simp only [modeBit, readJogMode, if_true, jogWord, JogMode.speed.injEq]
    refine ⟨ofNat_natOfBits_range _ _ fun i hi => getLsbD_layout _ (hs i hi) hsl, ?_⟩
    rw [getLsbD_layout _ hd hsl]
    exact decodeDir_dirBit P dir

/-- Mode and colour are read back from the jog word and the SET byte, in every layout that carries them whole (R90 to R93). -/
theorem decodeJog_jogBlock {P : Params} (hj : P.jogWordLayout.carriesAll = true)
    (hs : SetBit.layoutCarriesAll P.setByteLayout = true) {lo hi : Byte} {mode : JogMode} (color : JogColor)
    (hw : hi ++ lo = jogWord P mode) : decodeJog P lo hi (setByte P mode color) = some (mode, color) := by
  simp only [SetBit.layoutCarriesAll, Bool.and_eq_true, decide_eq_true_eq, List.all_eq_true] at hs
  have hb : ∀ b ∈ [SetBit.mode, .green, .blue, .red],
      (setByte P mode color).getLsbD (P.setByteLayout.idxOf b) = setBit mode color b :=
    fun b h => getLsbD_layout _ (hs.2 b h) hs.1
  simp only [decodeJog, hw, hb .mode (by simp), hb .green (by simp), hb .blue (by simp), hb .red (by simp), setBit,
    readJogMode_jogWord hj, and_self, if_true]

end Sys2Proof
end

