-- ==== Sys2Proof/Laws/PerInstr.lean ====
section
/-! SUPPORT. A statement for every instruction, one lemma per constructor: the payload of a request the interface can carry
fits the one-byte size field (30_encoding R65). -/

namespace Sys2Proof.Laws.PayloadBound

/-- A request the interface carries has a payload of at most 248 bytes, and at most 6 for every operation but IJog (R65). -/
def Statement (i : Instr) : Prop :=
  ∀ (P : Params) (id cmd : Byte) (payload : List Byte), P.ijogMaxEntries ≤ 49 →
    serialize P i = some (id, .ok (cmd, payload)) →
    payload.length ≤ maxPayload ∧ ((∀ n es, i ≠ .iJog n es) → payload.length ≤ 6)

/-- What is encoded is a request the interface carries (R182). -/
theorem serialize_eq_some {P : Params} {i : Instr} {x : Byte × Serialized} :
    serialize P i = some x ↔ i.wf P = true ∧ serializeOperands P i = some x := by
  unfold serialize; split <;> simp_all

theorem lengthField_length (P : Params) (w : Width) : (lengthField P w).length ≤ 1 := by
  unfold lengthField; split <;> simp

theorem leBytes_length (v : WriteValue) : (leBytes v).length ≤ 2 := by
  cases v <;> simp [leBytes]

theorem entryBlocks_length (P : Params) (es : List JogEntry) : (entryBlocks P es).length = 5 * es.length := by
  induction es with
  | nil => rfl
  | cons e es ih => simp [entryBlocks, entryBlock, jogBlock, ih]; omega

/-- The payload of a write is at most four bytes (R75). -/
theorem serializeWrite_length {P : Params} {c cmd : Byte} {a : CatalogAddr} {v : WriteValue} {payload : List Byte}
    (h : serializeWrite P c a v = .ok (cmd, payload)) : payload.length ≤ 4 := by
  unfold serializeWrite at h
  split at h
  · cases h
    have h1 := lengthField_length P a.w
    have h2 := leBytes_length v
    simp; omega
  · cases h

/-- A payload of at most six bytes meets both bounds. -/
theorem of_short {i : Instr} {payload : List Byte} (h : payload.length ≤ 6) :
    payload.length ≤ maxPayload ∧ ((∀ n es, i ≠ .iJog n es) → payload.length ≤ 6) :=
  ⟨by simp only [maxPayload]; omega, fun _ => h⟩

theorem writeRam (id : Byte) (a : CatalogAddr) (v : WriteValue) : Statement (.writeRam id a v) := by
  intro P id' cmd payload _ h
  replace h := (serialize_eq_some.1 h).2
  simp only [serializeOperands, Option.some.injEq, Prod.mk.injEq] at h
  have := serializeWrite_length h.2
  exact of_short (by omega)

theorem writeEep (id : Byte) (a : CatalogAddr) (v : WriteValue) : Statement (.writeEep id a v) := by
  intro P id' cmd payload _ h
  replace h := (serialize_eq_some.1 h).2
  simp only [serializeOperands, Option.some.injEq, Prod.mk.injEq] at h
  have := serializeWrite_length h.2
  exact of_short (by omega)

theorem readRam (id : Byte) (a : CatalogAddr) : Statement (.readRam id a) := by
  intro P id' cmd payload _ h
  replace h := (serialize_eq_some.1 h).2
  cases h; exact of_short (by simp [readPayload])

theorem readEep (id : Byte) (a : CatalogAddr) : Statement (.readEep id a) := by
  intro P id' cmd payload _ h
  replace h := (serialize_eq_some.1 h).2
  cases h; exact of_short (by simp [readPayload])

theorem sJog (id pt : Byte) (mode : JogMode) (color : JogColor) (tid : Byte) : Statement (.sJog id pt mode color tid) := by
  intro P id' cmd payload _ h
  replace h := (serialize_eq_some.1 h).2
  cases h; exact of_short (by simp [jogBlock])

theorem iJog (id : Byte) (es : List JogEntry) : Statement (.iJog id es) := by
  intro P id' cmd payload hm h
  obtain ⟨hw, h⟩ := serialize_eq_some.1 h
  cases h
  have hw : es.length ≤ P.ijogMaxEntries := of_decide_eq_true hw
  exact ⟨by rw [entryBlocks_length]; simp only [maxPayload]; omega, fun hne => absurd rfl (hne _ _)⟩

theorem stat (id : Byte) : Statement (.stat id) := by
  intro P id' cmd payload _ h
  replace h := (serialize_eq_some.1 h).2
  cases h; exact of_short (by simp)

theorem reboot (id : Byte) : Statement (.reboot id) := by
  intro P id' cmd payload _ h
  replace h := (serialize_eq_some.1 h).2
  cases h; exact of_short (by simp)

theorem ackPolicy (id p : Byte) : Statement (.ackPolicy id p) := by
  intro P id' cmd payload _ h
  replace h := (serialize_eq_some.1 h).2
  obtain ⟨a, -, ha⟩ := Option.map_eq_some_iff.1 h
  cases ha
  have := lengthField_length P a.w
  exact of_short (by simp; omega)

theorem feedb (b : Byte) : Statement (.feedb b) := by
  intro P id cmd payload _ h; cases (serialize_eq_some.1 h).2

theorem feed (bs : List Byte) : Statement (.feed bs) := by
  intro P id cmd payload _ h; cases (serialize_eq_some.1 h).2

theorem pop : Statement .pop := by
  intro P id cmd payload _ h; cases (serialize_eq_some.1 h).2

theorem drain : Statement .drain := by
  intro P id cmd payload _ h; cases (serialize_eq_some.1 h).2

theorem reset : Statement .reset := by
  intro P id cmd payload _ h; cases (serialize_eq_some.1 h).2

end Sys2Proof.Laws.PayloadBound
end

