-- ==== Sys2Proof/Laws/Decode.lean ====
section
/-! SUPPORT. The pieces of decoding an encoded request: the two bytes of a word, a built frame at the front of the bytes, the
catalog lookup, and the payload bound for any instruction. -/

namespace Sys2Proof

/-- The two bytes of a 16-bit value put together again (R46). -/
theorem highByte_append_lowByte (w : Word) : highByte w ++ lowByte w = w := by
  apply BitVec.eq_of_getLsbD_eq
  intro i hi
  simp only [BitVec.getLsbD_append, highByte, lowByte, BitVec.getLsbD_extractLsb']
  by_cases h : i < 8
  · simp [h]
  · have h8 : i - 8 < 8 := by omega
    simp [h8, h]
    congr 1
    omega

/-- What makes a block of the spec, part by part (R8, R72, R79, R80, log entries 9 and 17). -/
theorem Params.wf_iff (P : Params) : P.wf = true ↔
    P.Fixed ∧ P.jogWordLayout.carriesAll = true ∧ SetBit.layoutCarriesAll P.setByteLayout = true ∧ P.cmd.toList.Nodup ∧
    (P.sjogBlockWidth = 4 ∨ P.sjogBlockWidth = 5) ∧ P.ackPolicyOk = true ∧
    (P.addrTable.map fun a => (a.space, a.off)).Nodup := by
  simp only [Params.wf, Bool.and_eq_true, Bool.or_eq_true, decide_eq_true_eq, and_assoc]

/-- The entries of an IJog are read back from their blocks, in every layout that carries them whole (R81, R82). -/
theorem decodeEntries_entryBlocks {P : Params} (hj : P.jogWordLayout.carriesAll = true)
    (hs : SetBit.layoutCarriesAll P.setByteLayout = true) (es : List JogEntry) :
    decodeEntries P (entryBlocks P es) = some es := by
  induction es with
  | nil => rfl
  | cons e es ih =>
    simp only [entryBlocks, entryBlock, jogBlock, List.cons_append, List.nil_append, decodeEntries,
      decodeJog_jogBlock hj hs e.color (highByte_append_lowByte _), ih]

/-- Decoding a built frame comes down to its id, command byte and payload (R60, R68). -/
theorem decode_frame {P : Params} (hf : P.Fixed) (id cmd : Byte) (payload rest : List Byte)
    (h : payload.length ≤ maxPayload) :
    decode P (frame P id cmd payload ++ rest) =
      match decodeRequest P id cmd payload with
      | .ok i => .instr i rest
      | .error e => .rejected e := by
  have hs := sizeByte_toNat hf.2.2.1 h
  have ht : (frame P id cmd payload ++ rest).take (sizeByte P payload).toNat =
      frame P id cmd payload := List.take_left' (by simp [hs])
  have hd : (frame P id cmd payload ++ rest).drop (sizeByte P payload).toNat = rest :=
    List.drop_left' (by simp [hs])
  have hl : ¬ (frame P id cmd payload ++ rest).length < (sizeByte P payload).toNat := by
    rw [List.length_append, frame_length]; omega
  have hm : ¬ (sizeByte P payload).toNat < P.minSize := by rw [hf.2.2.2.1]; omega
  have hc : frame P id cmd payload ++ rest =
      P.hdr0 :: P.hdr1 :: sizeByte P payload :: (frame P id cmd payload ++ rest).drop 3 := rfl
  unfold decode
  rw [hc]
  simp only
  rw [← hc, ht, hd, if_neg (by simp), if_neg hm, if_neg hl]
  cases hr : decodeRequest P id cmd payload <;> simp only [parseFrame_frame, hr]

/-- A catalog that names no place twice finds each usable address by its offset (R43, R87). -/
theorem lookupAddr_found {P : Params} (hw : P.wf = true) {a : CatalogAddr} {usable : CatalogAddr → Bool}
    (ha : a ∈ P.addrTable) (hu : usable a = true) : lookupAddr P a.space usable a.off = some a := by
  have hn : (P.addrTable.map fun a => (a.space, a.off)).Nodup :=
    ((P.wf_iff).1 hw).2.2.2.2.2.2
  unfold lookupAddr
  generalize P.addrTable = l at *
  induction l with
  | nil => cases ha
  | cons x xs ih =>
    rw [List.find?_cons]
    simp only [List.map_cons, List.nodup_cons, List.mem_map, not_exists, not_and, Prod.mk.injEq] at hn
    rcases List.mem_cons.1 ha with rfl | ha
    · simp [hu]
    · have hx : (decide (x.space = a.space) && decide (x.off = a.off) && usable x) = false := by
        by_cases h1 : x.space = a.space
        · have := hn.1 a ha h1.symm
          simp [Ne.symm this]
        · simp [h1]
      rw [hx]
      exact ih ha hn.2

/-- The payload bound for any instruction, from its lemma for each constructor (R65). -/
theorem Laws.PayloadBound.all (i : Instr) : Laws.PayloadBound.Statement i := by
  cases i with
  | writeRam id a v => exact Laws.PayloadBound.writeRam id a v
  | writeEep id a v => exact Laws.PayloadBound.writeEep id a v
  | readRam id a => exact Laws.PayloadBound.readRam id a
  | readEep id a => exact Laws.PayloadBound.readEep id a
  | sJog id pt mode color tid => exact Laws.PayloadBound.sJog id pt mode color tid
  | iJog id es => exact Laws.PayloadBound.iJog id es
  | stat id => exact Laws.PayloadBound.stat id
  | reboot id => exact Laws.PayloadBound.reboot id
  | ackPolicy id p => exact Laws.PayloadBound.ackPolicy id p
  | feedb b => exact Laws.PayloadBound.feedb b
  | feed bs => exact Laws.PayloadBound.feed bs
  | pop => exact Laws.PayloadBound.pop
  | drain => exact Laws.PayloadBound.drain
  | reset => exact Laws.PayloadBound.reset

end Sys2Proof
end

