-- ==== Sys2Proof/Laws/Scan.lean ====
section
/-! SUPPORT. What one iteration of the resolve loop can find (R146): the shape of the buffer in each case, that every case but
waiting drops a byte, that waiting is being at rest, and that later bytes never change a decision. -/

namespace Sys2Proof.Machine

/-- Every shape of the buffer, with the arm of the loop it takes (R146). -/
theorem scan_cases (P : Params) (buf : List Byte) :
    (scan P buf = .wait ∧ atRest P buf = true) ∨
    (∃ b rest, buf = b :: rest ∧ b ≠ P.hdr0 ∧ scan P buf = .badByte rest) ∨
    (∃ b rest, buf = P.hdr0 :: b :: rest ∧ b ≠ P.hdr1 ∧ scan P buf = .badByte (b :: rest)) ∨
    (∃ size rest, buf = P.hdr0 :: P.hdr1 :: size :: rest ∧ size.toNat < P.minSize ∧ scan P buf = .badSize rest) ∨
    (∃ size rest, buf = P.hdr0 :: P.hdr1 :: size :: rest ∧ P.minSize ≤ size.toNat ∧ size.toNat ≤ buf.length ∧
      ((∃ p, parseFrame P.cksumMask (buf.take size.toNat) = some p ∧ scan P buf = .packet p (buf.drop size.toNat)) ∨
       (parseFrame P.cksumMask (buf.take size.toNat) = none ∧ scan P buf = .mismatch (P.hdr1 :: size :: rest)))) := by
  match buf with
  | [] => exact .inl ⟨rfl, rfl⟩
  | [b0] =>
    by_cases h0 : b0 = P.hdr0
    · subst h0; exact .inl ⟨by simp [scan], by simp [atRest]⟩
    · exact .inr (.inl ⟨b0, [], rfl, h0, by simp [scan, h0]⟩)
  | [b0, b1] =>
    by_cases h0 : b0 = P.hdr0
    · subst h0
      by_cases h1 : b1 = P.hdr1
      · subst h1; exact .inl ⟨by simp [scan], by simp [atRest]⟩
      · exact .inr (.inr (.inl ⟨b1, [], rfl, h1, by simp [scan, h1]⟩))
    · exact .inr (.inl ⟨b0, [b1], rfl, h0, by simp [scan, h0]⟩)
  | b0 :: b1 :: size :: t =>
    by_cases h0 : b0 = P.hdr0
    · subst h0
      by_cases h1 : b1 = P.hdr1
      · subst h1
        by_cases hs : size.toNat < P.minSize
        · exact .inr (.inr (.inr (.inl ⟨size, t, rfl, hs, by simp [scan, hs]⟩)))
        · by_cases hl : t.length + 3 < size.toNat
          · exact .inl ⟨by simp [scan, hs, hl], by simp [atRest, hl]; omega⟩
          · refine .inr (.inr (.inr (.inr ⟨size, t, rfl, by omega, by simp; omega, ?_⟩)))
            cases hp : parseFrame P.cksumMask ((P.hdr0 :: P.hdr1 :: size :: t).take size.toNat) with
            | none => exact .inr ⟨rfl, by simp [scan, hs, hl, hp]⟩
            | some p => exact .inl ⟨p, rfl, by simp [scan, hs, hl, hp]⟩
      · exact .inr (.inr (.inl ⟨b1, size :: t, rfl, h1, by simp [scan, h1]⟩))
    · exact .inr (.inl ⟨b0, b1 :: size :: t, rfl, h0, by simp [scan, h0]⟩)

/-- The loop returns exactly at rest (R26). -/
theorem scan_wait_iff (P : Params) (buf : List Byte) : scan P buf = .wait ↔ atRest P buf = true := by
  rcases scan_cases P buf with ⟨h, r⟩ | ⟨b, rest, rfl, hb, h⟩ | ⟨b, rest, rfl, hb, h⟩ | ⟨size, rest, rfl, hs, h⟩ |
    ⟨size, rest, hbuf, hs, hl, h⟩
  · simp [h, r]
  · rw [h]; cases rest with
    | nil => simp [atRest, hb]
    | cons c cs => cases cs <;> simp [atRest, hb]
  · rw [h]; cases rest <;> simp [atRest, hb]
  · rw [h]; simp [atRest]; omega
  · have hr : atRest P buf = false := by
      subst hbuf; simp [atRest] at *; omega
    rcases h with ⟨p, -, h⟩ | ⟨-, h⟩ <;> simp [h, hr]

/-- The fields of a complete candidate at the front of a buffer, and the bytes after it (R60, R71). -/
theorem candidate_shape {h0 h1 size : Byte} {tail : List Byte} (hs : 7 ≤ size.toNat)
    (hl : size.toNat ≤ (h0 :: h1 :: size :: tail).length) :
    ∃ id cmd k1 k2 payload rest, tail = id :: cmd :: k1 :: k2 :: (payload ++ rest) ∧
      size.toNat = 7 + payload.length ∧
      (h0 :: h1 :: size :: tail).take size.toNat = h0 :: h1 :: size :: id :: cmd :: k1 :: k2 :: payload ∧
      (h0 :: h1 :: size :: tail).drop size.toNat = rest := by
  simp only [List.length_cons] at hl
  obtain ⟨n, hn⟩ : ∃ n, size.toNat = n + 7 := ⟨size.toNat - 7, by omega⟩
  match tail with
  | [] | [_] | [_, _] | [_, _, _] => simp at hl; omega
  | id :: cmd :: k1 :: k2 :: more =>
    simp only [List.length_cons] at hl
    exact ⟨id, cmd, k1, k2, more.take n, more.drop n, by rw [List.take_append_drop],
      by rw [List.length_take]; omega, by rw [hn]; rfl, by rw [hn]; rfl⟩

/-- R147: a front byte that is not `HDR0`. -/
theorem scan_badFirst {P : Params} {b : Byte} (rest : List Byte) (h : b ≠ P.hdr0) :
    scan P (b :: rest) = .badByte rest := by
  simp only [scan, if_pos h]

/-- R148: `HDR0` before a byte that is not `HDR1`. -/
theorem scan_badSecond {P : Params} {b : Byte} (rest : List Byte) (h : b ≠ P.hdr1) :
    scan P (P.hdr0 :: b :: rest) = .badByte (b :: rest) := by
  simp only [scan, ne_eq, not_true_eq_false, if_false, if_pos h]

/-- R149: a size byte below `MIN_SIZE`. -/
theorem scan_badSize {P : Params} {size : Byte} (rest : List Byte) (h : size.toNat < P.minSize) :
    scan P (P.hdr0 :: P.hdr1 :: size :: rest) = .badSize rest := by
  simp only [scan, ne_eq, not_true_eq_false, if_false, if_pos h]

/-- R150 and R151: a complete candidate is a packet when both checksums hold, else it loses its first byte. -/
theorem scan_candidate {P : Params} {size : Byte} (id cmd k1 k2 : Byte) {payload : List Byte} (rest : List Byte)
    (hm : P.minSize ≤ size.toNat) (h : size.toNat = 7 + payload.length) :
    scan P ([P.hdr0, P.hdr1, size, id, cmd, k1, k2] ++ payload ++ rest) =
      if k1 = checksum1 P.cksumMask size id cmd payload ∧ k2 = checksum2 P.cksumMask k1 then .packet ⟨id, cmd, payload⟩ rest
      else .mismatch ([P.hdr1, size, id, cmd, k1, k2] ++ payload ++ rest) := by
  have h1 : ¬ size.toNat < P.minSize := by omega
  have h2 : ¬ (id :: cmd :: k1 :: k2 :: (payload ++ rest)).length + 3 < size.toNat := by simp; omega
  have ht : (P.hdr0 :: P.hdr1 :: size :: id :: cmd :: k1 :: k2 :: (payload ++ rest) : List Byte).take size.toNat =
      P.hdr0 :: P.hdr1 :: size :: id :: cmd :: k1 :: k2 :: payload := by
    rw [h, Nat.add_comm]; simp
  have hd : (P.hdr0 :: P.hdr1 :: size :: id :: cmd :: k1 :: k2 :: (payload ++ rest) : List Byte).drop size.toNat = rest := by
    rw [h, Nat.add_comm]; simp
  simp only [List.cons_append, List.nil_append, scan, ne_eq, not_true_eq_false, if_false, h1, h2, ht, hd,
    parseFrame_cons]
  split <;> simp_all

/-- A scan that finds a packet has its frame at the front (R150). -/
theorem scan_packet {P : Params} {buf rest : List Byte} {p : AckPacket} (h : scan P buf = .packet p rest) :
    ∃ size tail, buf = P.hdr0 :: P.hdr1 :: size :: tail ∧ P.minSize ≤ size.toNat ∧ size.toNat ≤ buf.length ∧
      parseFrame P.cksumMask (buf.take size.toNat) = some p ∧ rest = buf.drop size.toNat := by
  rcases scan_cases P buf with ⟨h', -⟩ | ⟨b, r, rfl, hb, h'⟩ | ⟨b, r, rfl, hb, h'⟩ | ⟨size, r, rfl, hs, h'⟩ |
    ⟨size, r, hbuf, hs, hl, ⟨q, hq, h'⟩ | ⟨-, h'⟩⟩ <;> rw [h'] at h <;> cases h
  exact ⟨size, r, hbuf, hs, hl, hq, rfl⟩

/-- The payload of a scanned packet fits a size byte (R65). -/
theorem scan_packet_payload {P : Params} {buf rest : List Byte} {p : AckPacket} (h : scan P buf = .packet p rest) :
    p.payload.length ≤ maxPayload := by
  obtain ⟨size, tail, -, -, hl, hp, -⟩ := scan_packet h
  have := parseFrame_payload_length hp
  rw [List.length_take] at this
  have := size.isLt
  simp only [maxPayload]; omega

/-- The bytes the loop goes on with, where it goes on. -/
def Scan.rest? : Scan → Option (List Byte)
  | .wait => none
  | .badByte r => some r
  | .badSize r => some r
  | .mismatch r => some r
  | .packet _ r => some r

/-- Every iteration that goes on drops at least one byte (R146). -/
theorem scan_drops {P : Params} {buf r : List Byte} (h : (scan P buf).rest? = some r) : r.length < buf.length := by
  rcases scan_cases P buf with ⟨h', -⟩ | ⟨b, r', rfl, hb, h'⟩ | ⟨b, r', rfl, hb, h'⟩ | ⟨size, r', rfl, hs, h'⟩ |
    ⟨size, r', hbuf, hs, hl, ⟨q, hq, h'⟩ | ⟨-, h'⟩⟩ <;> rw [h'] at h <;> simp [Scan.rest?] at h <;> subst h
  · simp
  · simp
  · simp; omega
  · have := parseFrame_payload_length hq
    rw [List.length_take] at this
    rw [List.length_drop]; omega
  · rw [hbuf]; simp

/-- The bytes the loop goes on with are a suffix of the buffer (R41). -/
theorem scan_suffix {P : Params} {buf r : List Byte} (h : (scan P buf).rest? = some r) : r <:+ buf := by
  rcases scan_cases P buf with ⟨h', -⟩ | ⟨b, r', rfl, hb, h'⟩ | ⟨b, r', rfl, hb, h'⟩ | ⟨size, r', rfl, hs, h'⟩ |
    ⟨size, r', hbuf, hs, hl, ⟨q, hq, h'⟩ | ⟨-, h'⟩⟩ <;> rw [h'] at h <;> simp [Scan.rest?] at h <;> subst h
  · exact List.suffix_cons _ _
  · exact List.suffix_cons _ _
  · exact ⟨[P.hdr0, P.hdr1, size], rfl⟩
  · exact List.drop_suffix _ _
  · exact ⟨[P.hdr0], by rw [hbuf]; rfl⟩

/-- A scan over a longer buffer: the same case, with the later bytes after what it leaves. -/
def Scan.append (ys : List Byte) : Scan → Scan
  | .wait => .wait
  | .badByte r => .badByte (r ++ ys)
  | .badSize r => .badSize (r ++ ys)
  | .mismatch r => .mismatch (r ++ ys)
  | .packet p r => .packet p (r ++ ys)

/-- "A later byte never changes an earlier decision" (R143). -/
theorem scan_append {P : Params} {buf : List Byte} (ys : List Byte) (h : scan P buf ≠ .wait) :
    scan P (buf ++ ys) = (scan P buf).append ys := by
  rcases scan_cases P buf with ⟨h', -⟩ | ⟨b, r', rfl, hb, h'⟩ | ⟨b, r', rfl, hb, h'⟩ | ⟨size, r', rfl, hs, h'⟩ |
    ⟨size, r', hbuf, hs, hl, ⟨q, hq, h'⟩ | ⟨hq, h'⟩⟩
  · exact absurd h' h
  · rw [h']; simp [Scan.append, scan, hb]
  · rw [h']; simp [Scan.append, scan, hb]
  · rw [h']; simp [Scan.append, scan, hs]
  all_goals
    rw [h']
    have ht : (buf ++ ys).take size.toNat = buf.take size.toNat := List.take_append_of_le_length hl
    have hd : (buf ++ ys).drop size.toNat = buf.drop size.toNat ++ ys := List.drop_append_of_le_length hl
    subst hbuf
    simp only [List.cons_append] at ht hd ⊢
    have h1 : ¬ size.toNat < P.minSize := by omega
    have h2 : ¬ (r' ++ ys).length + 3 < size.toNat := by simp at hl ⊢; omega
    simp only [scan, h1, h2, ht, hd, hq, Scan.append, ne_eq, not_true_eq_false, if_false, List.cons_append]

end Sys2Proof.Machine
end

