-- ==== Sys2Proof/Laws/State.lean ====
section
/-! SUPPORT. One lemma per field per update of the state, each true by rfl, so that no proof unfolds a record update. -/

namespace Sys2Proof.Machine

@[simp] theorem State.respond_params (s : State) (r : Response) : (s.respond r).params = s.params := rfl
@[simp] theorem State.respond_buf (s : State) (r : Response) : (s.respond r).buf = s.buf := rfl
@[simp] theorem State.respond_rq (s : State) (r : Response) : (s.respond r).rq = s.rq := rfl
@[simp] theorem State.respond_faulted (s : State) (r : Response) : (s.respond r).faulted = s.faulted := rfl
@[simp] theorem State.respond_input (s : State) (r : Response) : (s.respond r).input = s.input := rfl
@[simp] theorem State.respond_out (s : State) (r : Response) : (s.respond r).out = r := rfl

@[simp] theorem State.setBuf_params (s : State) (b : List Byte) : (s.setBuf b).params = s.params := rfl
@[simp] theorem State.setBuf_buf (s : State) (b : List Byte) : (s.setBuf b).buf = b := rfl
@[simp] theorem State.setBuf_rq (s : State) (b : List Byte) : (s.setBuf b).rq = s.rq := rfl
@[simp] theorem State.setBuf_faulted (s : State) (b : List Byte) : (s.setBuf b).faulted = s.faulted := rfl
@[simp] theorem State.setBuf_input (s : State) (b : List Byte) : (s.setBuf b).input = s.input := rfl
@[simp] theorem State.setBuf_out (s : State) (b : List Byte) : (s.setBuf b).out = s.out := rfl

@[simp] theorem State.enqueue_params (s : State) (p : AckPacket) : (s.enqueue p).params = s.params := rfl
@[simp] theorem State.enqueue_buf (s : State) (p : AckPacket) : (s.enqueue p).buf = s.buf := rfl
@[simp] theorem State.enqueue_rq (s : State) (p : AckPacket) : (s.enqueue p).rq = s.rq ++ [p] := rfl
@[simp] theorem State.enqueue_faulted (s : State) (p : AckPacket) : (s.enqueue p).faulted = s.faulted := rfl
@[simp] theorem State.enqueue_input (s : State) (p : AckPacket) : (s.enqueue p).input = s.input := rfl
@[simp] theorem State.enqueue_out (s : State) (p : AckPacket) : (s.enqueue p).out = s.out := rfl

@[simp] theorem State.raiseQueueOverflow_params (s : State) : (s.raiseQueueOverflow).params = s.params := rfl
@[simp] theorem State.raiseQueueOverflow_buf (s : State) : (s.raiseQueueOverflow).buf = s.buf := rfl
@[simp] theorem State.raiseQueueOverflow_rq (s : State) : (s.raiseQueueOverflow).rq = s.rq := rfl
@[simp] theorem State.raiseQueueOverflow_faulted (s : State) : (s.raiseQueueOverflow).faulted = true := rfl
@[simp] theorem State.raiseQueueOverflow_input (s : State) : (s.raiseQueueOverflow).input = s.input := rfl
@[simp] theorem State.raiseQueueOverflow_out (s : State) : (s.raiseQueueOverflow).out = s.out := rfl

@[simp] theorem State.resetDecoder_params (s : State) : (s.resetDecoder).params = s.params := rfl
@[simp] theorem State.resetDecoder_buf (s : State) : (s.resetDecoder).buf = [] := rfl
@[simp] theorem State.resetDecoder_rq (s : State) : (s.resetDecoder).rq = [] := rfl
@[simp] theorem State.resetDecoder_faulted (s : State) : (s.resetDecoder).faulted = false := rfl
@[simp] theorem State.resetDecoder_input (s : State) : (s.resetDecoder).input = s.input := rfl
@[simp] theorem State.resetDecoder_out (s : State) : (s.resetDecoder).out = s.out := rfl

@[simp] theorem State.queueFull_respond (s : State) (r : Response) : (s.respond r).queueFull = s.queueFull := rfl
@[simp] theorem State.queueFull_setBuf (s : State) (b : List Byte) : (s.setBuf b).queueFull = s.queueFull := rfl
@[simp] theorem State.queueFull_raise (s : State) : s.raiseQueueOverflow.queueFull = s.queueFull := rfl
@[simp] theorem State.setBuf_setBuf (s : State) (b c : List Byte) : (s.setBuf b).setBuf c = s.setBuf c := rfl
@[simp] theorem State.setBuf_self (s : State) : s.setBuf s.buf = s := rfl

/-- A block with an unbounded queue never finds it full (R150). -/
theorem State.queueFull_of_unbounded {s : State} (h : s.params.rqDepth = none) : s.queueFull = false := by
  simp [State.queueFull, h]

/-- The queue is full exactly when its length is `RQ_DEPTH` (R150). -/
theorem State.queueFull_iff (s : State) : s.queueFull = true ↔ s.params.rqDepth = some s.rq.length := by
  cases h : s.params.rqDepth <;> simp [State.queueFull, h, eq_comm]

end Sys2Proof.Machine
end

