-- ==== Sys2Proof/Laws/Resolve.lean ====
section
/-! SUPPORT. The resolve loop without its fuel: one unfolding equation, one induction principle, and what follows from it
about a FEEDB and a FEED: the fields they leave alone, at rest or faulted, the queue only growing, the buffer a suffix. -/

namespace Sys2Proof.Machine

/-- The scan drops bytes without pushing a packet, and goes on with `r` (R147, R148, R149, R151). -/
def Scan.Drops (sc : Scan) (r : List Byte) : Prop := sc = .badByte r ∨ sc = .badSize r ∨ sc = .mismatch r

theorem Scan.Drops.rest? {sc : Scan} {r : List Byte} (h : sc.Drops r) : sc.rest? = some r := by
  rcases h with rfl | rfl | rfl <;> rfl

/-- The four ways a scan can end. -/
theorem scan_split (P : Params) (buf : List Byte) :
    scan P buf = .wait ∨ (∃ r, (scan P buf).Drops r) ∨ ∃ p r, scan P buf = .packet p r := by
  cases scan P buf with
  | wait => exact .inl rfl
  | badByte r => exact .inr (.inl ⟨r, .inl rfl⟩)
  | badSize r => exact .inr (.inl ⟨r, .inr (.inl rfl)⟩)
  | mismatch r => exact .inr (.inl ⟨r, .inr (.inr rfl)⟩)
  | packet p r => exact .inr (.inr ⟨p, r, rfl⟩)

theorem resolveLoop_wait {s : State} (n : Nat) (h : scan s.params s.buf = .wait) : resolveLoop n s = s := by
  cases n <;> simp [resolveLoop, h]

theorem resolveLoop_drops {s : State} {r : List Byte} (n : Nat) (h : (scan s.params s.buf).Drops r) :
    resolveLoop (n + 1) s = resolveLoop n (s.setBuf r) := by
  rcases h with h | h | h <;> simp [resolveLoop, h]

theorem resolveLoop_packet {s : State} {p : AckPacket} {r : List Byte} (n : Nat)
    (h : scan s.params s.buf = .packet p r) :
    resolveLoop (n + 1) s = if s.queueFull then s.raiseQueueOverflow else resolveLoop n ((s.enqueue p).setBuf r) := by
  simp [resolveLoop, h]

/-- Fuel beyond the length of the buffer changes nothing: every iteration that goes on drops a byte (R146). -/
theorem resolveLoop_fuel (n : Nat) : ∀ s : State, s.buf.length ≤ n → resolveLoop n s = s.resolve := by
  induction n using Nat.strongRecOn with
  | _ n ih =>
    intro s hn
    rcases scan_split s.params s.buf with h | ⟨r, h⟩ | ⟨p, r, h⟩
    · rw [State.resolve, resolveLoop_wait _ h, resolveLoop_wait _ h]
    · have hr := scan_drops h.rest?
      obtain ⟨m, hm⟩ : ∃ m, s.buf.length = m + 1 := ⟨s.buf.length - 1, by omega⟩
      obtain ⟨k, rfl⟩ : ∃ k, n = k + 1 := ⟨n - 1, by omega⟩
      rw [State.resolve, hm, resolveLoop_drops _ h, resolveLoop_drops _ h,
        ih k (by omega) _ (by simp; omega)]
      by_cases hmk : m = k
      · subst hmk; rw [ih m (by omega) _ (by simp; omega)]
      · rw [ih m (by omega) _ (by simp; omega)]
    · have hr := scan_drops (P := s.params) (buf := s.buf) (r := r) (by rw [h]; rfl)
      obtain ⟨m, hm⟩ : ∃ m, s.buf.length = m + 1 := ⟨s.buf.length - 1, by omega⟩
      obtain ⟨k, rfl⟩ : ∃ k, n = k + 1 := ⟨n - 1, by omega⟩
      rw [State.resolve, hm, resolveLoop_packet _ h, resolveLoop_packet _ h,
        ih k (by omega) _ (by simp; omega), ih m (by omega) _ (by simp; omega)]

/-- At rest, resolve does nothing (R146). -/
theorem State.resolve_wait {s : State} (h : scan s.params s.buf = .wait) : s.resolve = s :=
  resolveLoop_wait _ h

/-- A dropping iteration (R147, R148, R149, R151). -/
theorem State.resolve_drops {s : State} {r : List Byte} (h : (scan s.params s.buf).Drops r) :
    s.resolve = (s.setBuf r).resolve := by
  have hr := scan_drops h.rest?
  obtain ⟨m, hm⟩ : ∃ m, s.buf.length = m + 1 := ⟨s.buf.length - 1, by omega⟩
  rw [State.resolve, hm, resolveLoop_drops _ h, resolveLoop_fuel _ _ (by simp; omega)]

/-- An iteration that finds a valid frame (R150). -/
theorem State.resolve_packet {s : State} {p : AckPacket} {r : List Byte}
    (h : scan s.params s.buf = .packet p r) :
    s.resolve = if s.queueFull then s.raiseQueueOverflow else ((s.enqueue p).setBuf r).resolve := by
  have hr := scan_drops (P := s.params) (buf := s.buf) (r := r) (by rw [h]; rfl)
  obtain ⟨m, hm⟩ : ∃ m, s.buf.length = m + 1 := ⟨s.buf.length - 1, by omega⟩
  rw [State.resolve, hm, resolveLoop_packet _ h, resolveLoop_fuel _ _ (by simp; omega)]

/-- Induction along the iterations of resolve. -/
theorem State.resolve_induction {motive : State → State → Prop}
    (wait : ∀ s, scan s.params s.buf = .wait → motive s s)
    (drops : ∀ s r t, (scan s.params s.buf).Drops r → motive (s.setBuf r) t → motive s t)
    (push : ∀ s p r t, scan s.params s.buf = .packet p r → s.queueFull = false →
      motive ((s.enqueue p).setBuf r) t → motive s t)
    (overflow : ∀ s p r, scan s.params s.buf = .packet p r → s.queueFull = true →
      motive s s.raiseQueueOverflow) (s : State) : motive s s.resolve := by
  induction hn : s.buf.length using Nat.strongRecOn generalizing s with
  | _ n ih =>
    rcases scan_split s.params s.buf with h | ⟨r, h⟩ | ⟨p, r, h⟩
    · rw [State.resolve_wait h]; exact wait s h
    · have hr := scan_drops h.rest?
      rw [State.resolve_drops h]
      exact drops s r _ h (ih _ (by simp; omega) (s.setBuf r) rfl)
    · have hr := scan_drops (P := s.params) (buf := s.buf) (r := r) (by rw [h]; rfl)
      rw [State.resolve_packet h]
      cases hf : s.queueFull with
      | true => exact overflow s p r h hf
      | false => exact push s p r _ h hf (ih _ (by simp; omega) ((s.enqueue p).setBuf r) rfl)

/-- Resolve leaves the parameters and the two ports alone, the queue only grows, and the buffer only loses bytes from its
front (R146, R40). -/
theorem State.resolve_frame (s : State) :
    s.resolve.params = s.params ∧ s.resolve.input = s.input ∧ s.resolve.out = s.out ∧
    s.rq <+: s.resolve.rq ∧ s.resolve.buf <:+ s.buf := by
  refine State.resolve_induction (motive := fun s t => t.params = s.params ∧ t.input = s.input ∧ t.out = s.out ∧
    s.rq <+: t.rq ∧ t.buf <:+ s.buf) ?_ ?_ ?_ ?_ s
  · intro s _; simp
  · intro s r t h ⟨h1, h2, h3, h4, h5⟩
    exact ⟨h1, h2, h3, h4, h5.trans (scan_suffix h.rest?)⟩
  · intro s p r t h _ ⟨h1, h2, h3, h4, h5⟩
    exact ⟨h1, h2, h3, (List.prefix_append _ _).trans h4, h5.trans (scan_suffix (by rw [h]; rfl))⟩
  · intro s p r _ _; simp

@[simp] theorem State.resolve_params (s : State) : s.resolve.params = s.params := s.resolve_frame.1
@[simp] theorem State.resolve_input (s : State) : s.resolve.input = s.input := s.resolve_frame.2.1
@[simp] theorem State.resolve_out (s : State) : s.resolve.out = s.out := s.resolve_frame.2.2.1

/-- Resolve of an unfaulted decoder ends at rest, or faulted with a full queue and the frame still at the front (R26, R186). -/
theorem State.resolve_ends (s : State) (h : s.faulted = false) :
    (s.resolve.faulted = false ∧ atRest s.params s.resolve.buf = true) ∨
    (s.resolve.faulted = true ∧ s.resolve.queueFull = true ∧
      ∃ p r, scan s.params s.resolve.buf = .packet p r) := by
  revert h
  refine State.resolve_induction (motive := fun s t => s.faulted = false →
    (t.faulted = false ∧ atRest s.params t.buf = true) ∨
    (t.faulted = true ∧ t.queueFull = true ∧ ∃ p r, scan s.params t.buf = .packet p r)) ?_ ?_ ?_ ?_ s
  · intro s hw hf; exact .inl ⟨hf, (scan_wait_iff _ _).1 hw⟩
  · intro s r t _ ih hf; exact ih hf
  · intro s p r t _ _ ih hf; exact ih hf
  · intro s p r h hq _; exact .inr ⟨rfl, hq, p, r, h⟩

/-- With an unbounded queue, resolve never faults (R183). -/
theorem State.resolve_unbounded (s : State) (h : s.faulted = false) (hq : s.params.rqDepth = none) :
    s.resolve.faulted = false := by
  rcases s.resolve_ends h with h | ⟨-, hf, -⟩
  · exact h.1
  · rw [State.queueFull_of_unbounded (by simpa using hq)] at hf; cases hf

/-- Resolving a buffer and then the bytes after it is resolving all of it at once, as long as no push overflows: "A later byte
never changes an earlier decision" (R143). -/
theorem State.resolve_append (ys : List Byte) (s : State) (h : s.resolve.faulted = false) :
    (s.setBuf (s.buf ++ ys)).resolve = (s.resolve.setBuf (s.resolve.buf ++ ys)).resolve := by
  revert h
  refine State.resolve_induction (motive := fun s t => t.faulted = false →
    (s.setBuf (s.buf ++ ys)).resolve = (t.setBuf (t.buf ++ ys)).resolve) ?_ ?_ ?_ ?_ s
  · intro s _ _; rfl
  · intro s r t h ih hf
    have hne : scan s.params s.buf ≠ .wait := by rcases h with h | h | h <;> simp [h]
    have ha := scan_append ys hne
    rw [← ih hf]
    refine State.resolve_drops (s := s.setBuf (s.buf ++ ys)) (r := r ++ ys) ?_
    show (scan s.params (s.buf ++ ys)).Drops (r ++ ys)
    rw [ha]
    rcases h with h | h | h <;> simp [h, Scan.Drops, Scan.append]
  · intro s p r t h hq ih hf
    have ha := scan_append ys (show scan s.params s.buf ≠ .wait by simp [h])
    rw [← ih hf]
    have hp : scan (s.setBuf (s.buf ++ ys)).params (s.setBuf (s.buf ++ ys)).buf = .packet p (r ++ ys) := by
      show scan s.params (s.buf ++ ys) = _
      rw [ha, h]; rfl
    rw [State.resolve_packet hp]
    simp only [State.queueFull_setBuf, hq]
    rfl
  · intro s p r _ _ hf; cases hf

@[simp] theorem State.feedByte_params (s : State) (b : Byte) : (s.feedByte b).params = s.params := by simp [State.feedByte]
@[simp] theorem State.feedByte_input (s : State) (b : Byte) : (s.feedByte b).input = s.input := by simp [State.feedByte]
@[simp] theorem State.feedByte_out (s : State) (b : Byte) : (s.feedByte b).out = s.out := by simp [State.feedByte]

/-- A FEEDB only pushes at the back of the queue (R150, R154). -/
theorem State.feedByte_rq (s : State) (b : Byte) : s.rq <+: (s.feedByte b).rq :=
  (s.setBuf (s.buf ++ [b])).resolve_frame.2.2.2.1

/-- The frame of a FEED (R142). -/
theorem State.feedBytes_frame (s : State) (bs : List Byte) :
    (s.feedBytes bs).params = s.params ∧ (s.feedBytes bs).input = s.input ∧ (s.feedBytes bs).out = s.out ∧
    s.rq <+: (s.feedBytes bs).rq := by
  induction bs generalizing s with
  | nil => simp [State.feedBytes]
  | cons b bs ih =>
    simp only [State.feedBytes]
    split
    · simp [State.feedByte_rq]
    · obtain ⟨h1, h2, h3, h4⟩ := ih (s.feedByte b)
      exact ⟨by simp [h1], by simp [h2], by simp [h3], (s.feedByte_rq b).trans h4⟩

end Sys2Proof.Machine
end

