-- ==== Sys2Proof/Laws/Exec.lean ====
section
/-! SUPPORT. The shared shapes of a transaction and of the boundary check, each said once, and the one form every encoder
request takes. -/

namespace Sys2Proof.Machine

/-- A decoder transaction has a next state exactly when the decoder is not faulted (R140). -/
theorem decoderTransaction_eq_next {s t u : State} :
    decoderTransaction s t = .next u ↔ s.faulted = false ∧ u = t := by
  cases h : s.faulted <;> simp [decoderTransaction, h, eq_comm]

/-- An encoder transaction has a next state exactly when the boundary lets it in, and then only the output port changes
(R102, R104). -/
theorem encoderTransaction_eq_next {bad : Option Refusal} {id : Byte} {op : Serialized} {s t : State} :
    encoderTransaction bad id op s = .next t ↔
      bad = none ∧ t = s.respond (buildResponse s.params id op) := by
  cases bad <;> simp [encoderTransaction, eq_comm]

/-- The boundary lets an address in exactly when it is a catalog address of the space with the flag (R87). -/
theorem checkAddr_eq_none {P : Params} {sp : Space} {flag : Bool} {r : Refusal} {a : CatalogAddr} :
    checkAddr P sp flag r a = none ↔ (a.inSpace P sp && flag) = true := by
  by_cases h1 : a ∈ P.addrTable <;> by_cases h2 : a.space = sp <;> cases flag <;>
    simp [checkAddr, CatalogAddr.inSpace, h1, h2]

theorem checkWrite_eq_none {P : Params} {sp : Space} {a : CatalogAddr} :
    checkWrite P sp a = none ↔ (a.inSpace P sp && a.writable) = true := checkAddr_eq_none

theorem checkRead_eq_none {P : Params} {sp : Space} {a : CatalogAddr} :
    checkRead P sp a = none ↔ (a.inSpace P sp && a.readable) = true := checkAddr_eq_none

theorem checkEntries_eq_none {P : Params} {es : List JogEntry} :
    checkEntries P es = none ↔ es.length ≤ P.ijogMaxEntries := by
  unfold checkEntries; split <;> simp_all

/-- The one form of a request the interface carries: its operation is serialized and answered at the output port, and nothing
else changes (R102, R104). -/
theorem exec_request {i : Instr} {s : State} (hi : i.isRequest = true) (hw : i.wf s.params = true) :
    ∃ id op, serialize s.params i = some (id, op) ∧
      exec i s = .next (s.respond (buildResponse s.params id op)) := by
  simp only [serialize, hw, if_true]
  cases i <;> simp only [Instr.isRequest, Bool.false_eq_true] at hi
  case writeRam id a v => exact ⟨_, _, rfl, encoderTransaction_eq_next.2 ⟨checkWrite_eq_none.2 hw, rfl⟩⟩
  case writeEep id a v => exact ⟨_, _, rfl, encoderTransaction_eq_next.2 ⟨checkWrite_eq_none.2 hw, rfl⟩⟩
  case readRam id a => exact ⟨_, _, rfl, encoderTransaction_eq_next.2 ⟨checkRead_eq_none.2 hw, rfl⟩⟩
  case readEep id a => exact ⟨_, _, rfl, encoderTransaction_eq_next.2 ⟨checkRead_eq_none.2 hw, rfl⟩⟩
  case sJog id pt mode color tid => exact ⟨_, _, rfl, rfl⟩
  case iJog id es =>
    exact ⟨_, _, rfl, encoderTransaction_eq_next.2 ⟨checkEntries_eq_none.2 (by simpa [Instr.wf] using hw), rfl⟩⟩
  case stat id => exact ⟨_, _, rfl, rfl⟩
  case reboot id => exact ⟨_, _, rfl, rfl⟩
  case ackPolicy id p =>
    obtain ⟨a, ha⟩ := Option.isSome_iff_exists.1 (show s.params.ackPolicyRam.isSome = true from hw)
    refine ⟨id, serializeAckPolicy s.params a p, by simp [serializeOperands, ha], ?_⟩
    simp [exec, execAckPolicy, ha, encoderTransaction]

end Sys2Proof.Machine
end

