-- ==== Sys2Proof/Tests/Slice0.lean ====
section
/-! SUPPORT. The model's own tests, from the vectors of 95_test_vectors.md and the examples of 40_encoder.md, a smoke test of
WellFormed, and a witness for every statement that has hypotheses. -/

namespace Sys2Proof.Tests

open Sys2Proof.Machine

/-! ## Helpers -/

/-- The next state of an outcome. -/
def after : Result → Option State
  | .next t => some t
  | .fault _ => none
  | .refused _ => none

/-- The output of a transaction. -/
def outOf (r : Result) : Option Response := (after r).map State.out

/-- The buffer and the queue after a transaction. -/
def decoderOf (r : Result) : Option (List Byte × List AckPacket) := (after r).map fun t => (t.buf, t.rq)

/-- A fresh block with the vectors' parameters, changed by `g`. -/
def block (g : Params → Params) : State := State.fresh (g Params.vectors)

/-- The vectors' block with this buffer and queue. -/
def holding (buf : List Byte) (rq : List AckPacket) : State := { block id with buf := buf, rq := rq }

def torque : CatalogAddr := ⟨.torqueControl, .ram, 0x34, .one, true, true⟩
def positionKp : CatalogAddr := ⟨.positionKpRam, .ram, 0x18, .two, true, true⟩
def voltage : CatalogAddr := ⟨.voltage, .ram, 0x36, .one, true, false⟩
def absolutePosition : CatalogAddr := ⟨.absolutePosition, .ram, 0x3C, .two, true, false⟩
def idEep : CatalogAddr := ⟨.idEep, .eep, 0x06, .one, true, true⟩
def baudRate : CatalogAddr := ⟨.baudRate, .eep, 0x04, .one, true, true⟩
def positionKpEep : CatalogAddr := ⟨.positionKpEep, .eep, 0x1E, .two, true, true⟩
def green : JogColor := ⟨true, false, false⟩
def blue : JogColor := ⟨false, true, false⟩
def red : JogColor := ⟨false, false, true⟩

/-- Frame `R` of the vectors. -/
def frameR : List Byte := [0xFF, 0xFF, 0x07, 0xFE, 0x09, 0xF0, 0x0E]
/-- Frame `S` of the vectors. -/
def frameS : List Byte := [0xFF, 0xFF, 0x07, 0xFD, 0x07, 0xFC, 0x02]
/-- Frame `W` of the vectors. -/
def frameW : List Byte := [0xFF, 0xFF, 0x09, 0x60, 0x03, 0x3E, 0xC0, 0x34, 0x60]
def packetR : AckPacket := ⟨0xFE, 0x09, []⟩
def packetS : AckPacket := ⟨0xFD, 0x07, []⟩

/-! ## WellFormed: each check refuses an ill-formed term, and the boundary refuses it by its name -/

/-- An address that is in no row of the table, here one with a wrong width (R87). -/
theorem test_wf_catalog : Instr.wf Params.vectors (.writeRam 1 { torque with w := .two } (.word 0)) = false ∧
    execWriteRam 1 { torque with w := .two } (.word 0) (block id) = .refused .notCatalogAddress := ⟨by decide, rfl⟩

/-- An EEPROM address in a RAM write (R87). -/
theorem test_wf_space : Instr.wf Params.vectors (.writeRam 1 idEep (.byte 0)) = false ∧
    execWriteRam 1 idEep (.byte 0) (block id) = .refused .wrongSpace := ⟨by decide, rfl⟩

/-- A read-only address in a write (R182). -/
theorem test_wf_writable : Instr.wf Params.vectors (.writeRam 1 voltage (.byte 0)) = false ∧
    execWriteRam 1 voltage (.byte 0) (block id) = .refused .notWritable := ⟨by decide, rfl⟩

/-- An address that is not readable in a read (R87). -/
theorem test_wf_readable :
    let a : CatalogAddr := { idEep with readable := false, name := .other 0 }
    let s := block fun P => { P with addrTable := [a] }
    Instr.wf s.params (.readEep 1 a) = false ∧ execReadEep 1 a s = .refused .notReadable := ⟨by decide, rfl⟩

/-- Fifty entries (R110). -/
theorem test_wf_entries : Instr.wf Params.vectors (.iJog 1 (List.replicate 50 ⟨0, .position 0, green, 0⟩)) = false ∧
    checkEntries Params.vectors (List.replicate 50 ⟨0, .position 0, green, 0⟩) = some .tooManyEntries := ⟨by decide, by decide⟩

/-- A block whose catalog lacks ACK_POLICY_RAM (R79). -/
theorem test_wf_ack_policy : let s := block fun P => { P with addrTable := [idEep] }
    Instr.wf s.params (.ackPolicy 1 2) = false ∧ execAckPolicy 1 2 s = .refused .noAckPolicyRegister := ⟨by decide, rfl⟩

/-- What the interface cannot carry is not encoded (R182): an address of no catalog row, a read-only address in a write, fifty
entries; nor is a write of the wrong width (R181). Forty-nine entries are. -/
theorem test_not_encoded : encode Params.vectors (.writeRam 1 { torque with off := 0x33 } (.byte 0)) = none ∧
    encode Params.vectors (.writeRam 1 voltage (.byte 0)) = none ∧
    serialize Params.vectors (.iJog 1 (List.replicate 50 ⟨0, .position 0, green, 0⟩)) = none ∧
    encode Params.vectors (.writeRam 1 torque (.word 0)) = none ∧
    (serialize Params.vectors (.iJog 1 (List.replicate 49 ⟨0, .position 0, green, 0⟩))).isSome = true := by decide

/-- The defaults are parameters of a block; two equal command bytes, a jog width of 3 or a doubled place are not (R72, R80). -/
theorem test_wf_params : Params.default.wf = true ∧ Params.vectors.wf = true ∧
    Params.wf { Params.vectors with cmd := { defaultCmdBytes with stat := 0x09 } } = false ∧
    Params.wf { Params.vectors with sjogBlockWidth := 3 } = false ∧
    Params.wf { Params.vectors with addrTable := { torque with name := .other 0 } :: Params.vectors.addrTable } = false ∧
    Params.wf { Params.vectors with addrTable := [torque] } = false := by decide

/-- Values other than those R8 fixes, and jog layouts that lose an operand, make no block of the spec (R8, R91, R93). -/
theorem test_wf_fixed : Params.wf { Params.vectors with hdr0 := 0xFE } = false ∧
    Params.wf { Params.vectors with fixedLen := 8 } = false ∧ Params.wf { Params.vectors with minSize := 6 } = false ∧
    Params.wf { Params.vectors with ijogMaxEntries := 50 } = false ∧ Params.wf { Params.vectors with bufDepth := 254 } = false ∧
    Params.wf { Params.vectors with setByteLayout := [.zero, .mode, .green, .blue, .zero, .zero, .zero, .zero] } = false ∧
    Params.wf { Params.vectors with jogWordLayout :=
      { defaultJogWordLayout with speed := (List.range 14).map .value ++ [.zero, .zero] } } = false := by decide

/-! ## Decoding frames written out from the spec's encodings (EV vectors) -/

/-- EV-1: header FF FF, size 09, id 60, command 03, C1 3E, C2 C0, offset 34, value 60. -/
theorem test_decode_writeRam : decode Params.vectors frameW = .instr (.writeRam 0x60 torque (.byte 0x60)) [] := by decide

/-- EV-2: a 2-byte value, low byte first. -/
theorem test_decode_writeRam_word :
    decode Params.vectors [0xFF, 0xFF, 0x0A, 0x01, 0x03, 0xE4, 0x1A, 0x18, 0xF4, 0x01] =
      .instr (.writeRam 0x01 positionKp (.word 0x01F4)) [] := by decide

/-- EV-11: the write length byte present. -/
theorem test_decode_writeEep : decode { Params.vectors with writeLenField := true }
    [0xFF, 0xFF, 0x0A, 0xFD, 0x01, 0xD0, 0x2E, 0x06, 0x01, 0x20] = .instr (.writeEep 0xFD idEep (.byte 0x20)) [] := by decide

/-- EV-12, with bytes after the frame. -/
theorem test_decode_readRam : decode Params.vectors [0xFF, 0xFF, 0x09, 0xFD, 0x04, 0xCE, 0x30, 0x3C, 0x02, 0xAA] =
    .instr (.readRam 0xFD absolutePosition) [0xAA] := by decide

/-- EV-18. -/
theorem test_decode_readEep : decode Params.vectors [0xFF, 0xFF, 0x09, 0xFD, 0x02, 0xEA, 0x14, 0x1E, 0x02] =
    .instr (.readEep 0xFD positionKpEep) [] := by decide

/-- EV-21: speed 300 clockwise, blue. -/
theorem test_decode_sJog :
    decode Params.vectors [0xFF, 0xFF, 0x0D, 0x01, 0x06, 0x2C, 0xD2, 0x00, 0x2C, 0x01, 0x0A, 0x01, 0x00] =
      .instr (.sJog 0x01 0x00 (.speed 300 .clockwise) blue 0x01) [] := by decide

/-- EV-20: a 4-byte sub-block. -/
theorem test_decode_sJog_width4 : decode { Params.vectors with sjogBlockWidth := 4 }
    [0xFF, 0xFF, 0x0C, 0xFD, 0x06, 0x30, 0xCE, 0x3C, 0x00, 0x02, 0x04, 0xFD] =
      .instr (.sJog 0xFD 0x3C (.position 512) green 0xFD) [] := by decide

/-- EV-25. -/
theorem test_decode_iJog :
    decode Params.vectors [0xFF, 0xFF, 0x11, 0xFE, 0x05, 0x20, 0xDE, 0x00, 0x02, 0x04, 0x01, 0x3C, 0xFF, 0x03, 0x10, 0x02,
      0x1E] = .instr (.iJog 0xFE [⟨0x3C, .position 512, green, 0x01⟩, ⟨0x1E, .position 1023, red, 0x02⟩]) [] := by decide

/-- EV-29 and EV-14. -/
theorem test_decode_stat_reboot : decode Params.vectors frameS = .instr (.stat 0xFD) [] ∧
    decode Params.vectors frameR = .instr (.reboot 0xFE) [] := by decide

/-- EV-31: an AckPolicy frame is a WriteRam on the wire. -/
theorem test_decode_ackPolicy : decode Params.vectors [0xFF, 0xFF, 0x09, 0xFE, 0x03, 0xF6, 0x08, 0x01, 0x02] =
    .instr (.writeRam 0xFE ⟨.ackPolicyRam, .ram, 0x01, .one, true, true⟩ (.byte 2)) [] := by decide

/-- Every rejection of the decoder, each by a word of its own (R61, R68, R72, R74, R85, R87). -/
theorem test_decode_rejects :
    decode Params.vectors [0xFF, 0x00, 0x07] = .rejected .badHeader ∧
    decode Params.vectors [0xFF, 0xFF, 0x06] = .rejected .badSize ∧
    decode Params.vectors [0xFF, 0xFF, 0x07, 0xFD] = .rejected .truncated ∧
    decode Params.vectors [0xFF, 0xFF, 0x07, 0xFD, 0x07, 0xFC, 0x03] = .rejected .badChecksum ∧
    decode Params.vectors (frame Params.vectors 1 0x08 []) = .rejected .unknownCommand ∧
    decode Params.vectors (frame Params.vectors 1 0x03 [0x36, 0x00]) = .rejected .unknownAddress ∧
    decode Params.vectors (frame Params.vectors 1 0x07 [0x00]) = .rejected .badPayload := by decide

/-- The table word of each frame row gives a request of that row. -/
theorem test_table_words : (List.map (decodeTableWord 8) [1, 2, 3, 4, 5, 6, 7, 9]) =
    [some (.writeEep 0 baudRate (.byte 0)), some (.readEep 0 baudRate),
     some (.writeRam 0 ⟨.idRam, .ram, 0x00, .one, true, true⟩ (.byte 0)),
     some (.readRam 0 ⟨.idRam, .ram, 0x00, .one, true, true⟩), some (.iJog 0 []),
     some (.sJog 0 0 (.position 0) ⟨false, false, false⟩ 0), some (.stat 0), some (.reboot 0)] := by decide

/-! ## Encoder operations: the examples of 40_encoder.md and EV vectors -/

/-- R105's examples (EV-1, EV-2). -/
theorem test_writeRam : outOf (exec (.writeRam 0x60 torque (.byte 0x60)) State.reset) = some (.frame frameW) ∧
    outOf (exec (.writeRam 0x01 positionKp (.word 0x01F4)) State.reset) =
      some (.frame [0xFF, 0xFF, 0x0A, 0x01, 0x03, 0xE4, 0x1A, 0x18, 0xF4, 0x01]) := by decide

/-- EV-3 and EV-4: the error in both directions, and no bytes. -/
theorem test_writeRam_mismatch :
    outOf (exec (.writeRam 0x60 torque (.word 0x0060)) State.reset) = some (.error .addressWidthMismatch) ∧
    outOf (exec (.writeRam 0x01 positionKp (.byte 0xF4)) State.reset) = some (.error .addressWidthMismatch) := by decide

/-- EV-10, and EV-11 with the length byte. -/
theorem test_writeEep : outOf (exec (.writeEep 0xFD idEep (.byte 0x20)) State.reset) =
      some (.frame [0xFF, 0xFF, 0x09, 0xFD, 0x01, 0xD2, 0x2C, 0x06, 0x20]) ∧
    outOf (exec (.writeEep 0xFD idEep (.byte 0x20)) (block fun P => { P with writeLenField := true })) =
      some (.frame [0xFF, 0xFF, 0x0A, 0xFD, 0x01, 0xD0, 0x2E, 0x06, 0x01, 0x20]) := by decide

/-- EV-12. -/
theorem test_readRam : outOf (exec (.readRam 0xFD absolutePosition) State.reset) =
    some (.frame [0xFF, 0xFF, 0x09, 0xFD, 0x04, 0xCE, 0x30, 0x3C, 0x02]) := by decide

/-- EV-17 and EV-18. -/
theorem test_readEep : outOf (exec (.readEep 0xFD baudRate) State.reset) =
      some (.frame [0xFF, 0xFF, 0x09, 0xFD, 0x02, 0xF2, 0x0C, 0x04, 0x01]) ∧
    outOf (exec (.readEep 0xFD positionKpEep) State.reset) =
      some (.frame [0xFF, 0xFF, 0x09, 0xFD, 0x02, 0xEA, 0x14, 0x1E, 0x02]) := by decide

/-- EV-19 and EV-20. -/
theorem test_sJog : outOf (exec (.sJog 0xFD 0x3C (.position 512) green 0xFD) State.reset) =
      some (.frame [0xFF, 0xFF, 0x0D, 0xFD, 0x06, 0x0C, 0xF2, 0x3C, 0x00, 0x02, 0x04, 0xFD, 0x3C]) ∧
    outOf (exec (.sJog 0xFD 0x3C (.position 512) green 0xFD) (block fun P => { P with sjogBlockWidth := 4 })) =
      some (.frame [0xFF, 0xFF, 0x0C, 0xFD, 0x06, 0x30, 0xCE, 0x3C, 0x00, 0x02, 0x04, 0xFD]) := by decide

/-- EV-22: DIR_CW_BIT = 1 sets bit 14 of the jog word. -/
theorem test_sJog_speed :
    outOf (exec (.sJog 0x01 0x00 (.speed 300 .clockwise) blue 0x01) (block fun P => { P with dirCwBit := true })) =
      some (.frame [0xFF, 0xFF, 0x0D, 0x01, 0x06, 0x6C, 0x92, 0x00, 0x2C, 0x41, 0x0A, 0x01, 0x00]) := by decide

/-- EV-25 and EV-27. -/
theorem test_iJog :
    outOf (exec (.iJog 0xFE [⟨0x3C, .position 512, green, 0x01⟩, ⟨0x1E, .position 1023, red, 0x02⟩]) State.reset) =
      some (.frame [0xFF, 0xFF, 0x11, 0xFE, 0x05, 0x20, 0xDE, 0x00, 0x02, 0x04, 0x01, 0x3C, 0xFF, 0x03, 0x10, 0x02, 0x1E]) ∧
    outOf (exec (.iJog 0x01 []) State.reset) = some (.frame [0xFF, 0xFF, 0x07, 0x01, 0x05, 0x02, 0xFC]) := by decide

/-- EV-29 and EV-30. -/
theorem test_stat : outOf (exec (.stat 0xFD) State.reset) = some (.frame frameS) ∧
    outOf (exec (.stat 0x00) State.reset) = some (.frame [0xFF, 0xFF, 0x07, 0x00, 0x07, 0x00, 0xFE]) := by decide

/-- EV-14 and EV-16, and CV-2's mask 0xFF. -/
theorem test_reboot : outOf (exec (.reboot 0xFE) State.reset) = some (.frame frameR) ∧
    outOf (exec (.reboot 0xFF) State.reset) = some (.frame [0xFF, 0xFF, 0x07, 0xFF, 0x09, 0xF0, 0x0E]) ∧
    outOf (exec (.reboot 0xFE) (block fun P => { P with cksumMask := 0xFF })) =
      some (.frame [0xFF, 0xFF, 0x07, 0xFE, 0x09, 0xF0, 0x0F]) := by decide

/-- EV-31 and EV-32. -/
theorem test_ackPolicy : outOf (exec (.ackPolicy 0xFE 2) State.reset) =
      some (.frame [0xFF, 0xFF, 0x09, 0xFE, 0x03, 0xF6, 0x08, 0x01, 0x02]) ∧
    outOf (exec (.ackPolicy 0xFE 2) (block fun P => { P with writeLenField := true })) =
      some (.frame [0xFF, 0xFF, 0x0A, 0xFE, 0x03, 0xF4, 0x0A, 0x01, 0x01, 0x02]) := by decide

/-- `JOG_WORD` and `SET_BYTE` are parameters (R3, R8): with the direction in bit 15 and the LED bits in the order red, green, blue
from bit 5 down, a speed of 300 clockwise in red has the bytes 2C 81 22, by hand, and they read back. -/
theorem test_sJog_layout : let P := { Params.vectors with
      dirCwBit := true, setByteLayout := [.zero, .mode, .zero, .blue, .green, .red, .zero, .zero],
      jogWordLayout := { defaultJogWordLayout with speed := (List.range 14).map .value ++ [.zero, .dir] } }
    P.wf = true ∧ jogBlock P (.speed 300 .clockwise) red 0x01 0x00 = [0x2C, 0x81, 0x22, 0x01, 0x00] ∧
    decodeJog P 0x2C 0x81 0x22 = some (.speed 300 .clockwise, red) ∧ decodeJog P 0x2C 0x81 0x23 = none := by decide

/-- The header bytes are parameters (R8): a block with the header AA 55 frames with it, and its decoder looks for it. -/
theorem test_header_parameter : let s := block fun P => { P with hdr0 := 0xAA, hdr1 := 0x55 }
    outOf (exec (.stat 0xFD) s) = some (.frame [0xAA, 0x55, 0x07, 0xFD, 0x07, 0xFC, 0x02]) ∧
    decoderOf (exec (.feed ([0xFF, 0xAA] ++ [0xAA, 0x55, 0x07, 0xFD, 0x07, 0xFC, 0x02])) s) = some ([], [packetS]) := by decide

/-! ## Decoder transactions: DV vectors -/

/-- DV-2's last byte: the frame is complete. -/
theorem test_feedb : decoderOf (exec (.feedb 0x0E) (holding (frameR.take 6) [])) = some ([], [packetR]) := by decide

/-- DV-26's overflow: the buffer keeps the frame, the queue keeps its packet, `faulted` is set. -/
theorem test_feedb_overflow :
    let s : State := { block (fun P => { P with rqDepth := some 1 }) with buf := frameS.take 6, rq := [packetR] }
    (after (exec (.feedb 0x02) s)).map (fun t => (t.buf, t.rq, t.faulted)) = some (frameS, [packetR], true) := by decide

/-- DV-10, DV-12 and DV-6. -/
theorem test_feed_resync :
    decoderOf (exec (.feed ([0xFF, 0xFF, 0x09, 0x60, 0x03, 0x3E, 0xC0, 0x34, 0x62] ++ frameS)) State.reset) =
      some ([], [packetS]) ∧
    decoderOf (exec (.feed [0xFF, 0xFF, 0x0F, 0x02, 0x03, 0xE2, 0x1E, 0x10, 0xFF, 0xFF, 0x07, 0x01, 0x07, 0x00, 0xFE])
      State.reset) = some ([], [⟨0x01, 0x07, []⟩]) ∧
    decoderOf (exec (.feed ([0xFF, 0xFF, 0x05] ++ frameS)) State.reset) = some ([], [packetS]) := by decide

/-- DV-9 (an undetected flip), DV-13 (a stray FF holds the frame) and DV-24. -/
theorem test_feed_hold :
    decoderOf (exec (.feed [0xFF, 0xFF, 0x09, 0x60, 0x03, 0x3E, 0xC0, 0x34, 0x61]) State.reset) =
      some ([], [⟨0x60, 0x03, [0x34, 0x61]⟩]) ∧
    (after (exec (.feed (0xFF :: frameS)) State.reset)).map (fun t => (subState Params.vectors t.buf, t.rq)) =
      some (.awaitingBody 247, []) ∧
    decoderOf (exec (.feed ([0xFF, 0x00, 0xFF, 0x00] ++ frameR)) State.reset) = some ([], [packetR]) := by decide

/-- DV-27. -/
theorem test_pop : let s := holding [0xFF] [packetR, packetS]
    (after (exec .pop s)).map (fun t => (t.out, t.rq, t.buf)) = some (.popped (some packetR), [packetS], [0xFF]) ∧
    outOf (exec .pop (holding [] [])) = some (.popped none) := by decide

/-- P2's last step: both packets in order, the queue empty, the buffer kept. -/
theorem test_drain : (after (exec .drain (holding [0xFF] [packetR, packetS]))).map (fun t => (t.out, t.rq, t.buf)) =
    some (.drained [packetR, packetS], [], [0xFF]) := by decide

/-- DV-25's RESET, from a faulted decoder. -/
theorem test_reset : (after (exec .reset { holding (frameW.take 5) [packetR] with faulted := true })).map
    (fun t => (t.buf, t.rq, t.faulted)) = some ([], [], false) := by decide

/-! ## Witnesses: a concrete state and operands for the hypotheses of each statement -/

/-- The decoder of DV-26, full and with six bytes of the frame that will overflow. -/
def full : State := { block (fun P => { P with rqDepth := some 1 }) with buf := frameS.take 6, rq := [packetR] }

/-- A faulted decoder. -/
def stuck : State := { full with buf := frameS, faulted := true }

theorem witness_StepRunsPresentedTransaction : ({ State.reset with input := [.pop] }).input = .pop :: [] ∧
    State.reset.input = [] ∧ decodeTableWord 8 7 = some (.stat 0) := by decide

theorem witness_ParametersNeverChange : (∃ t, exec .reset stuck = .next t) ∧ (∃ t, exec (.feedb 0x02) full = .next t) ∧
    ∃ t, step { stuck with input := [.reset] } = .next t := ⟨⟨_, rfl⟩, ⟨_, rfl⟩, ⟨_, rfl⟩⟩

theorem witness_StatusOutputs : full.qEmpty = false ∧ State.reset.qEmpty = true ∧ (∃ t, exec .pop full = .next t) :=
  ⟨rfl, rfl, _, rfl⟩

set_option maxRecDepth 8000 in
theorem witness_FramerCore : Params.default.Fixed ∧ (List.replicate 248 (0 : Byte)).length ≤ 248 ∧ ([] : List Byte).length ≤ 248 := by decide

theorem witness_ChecksumAlgebra : ([1, 2, 3, 4] : List Byte).Perm (1 :: 2 :: 3 :: [4]) ∧
    (0x03 : Byte).getLsbD 0 = true ∧ [0xFF, 0xFF, 0x07, 0xFD, 0x07, 0xFC, (0x03 : Byte)][6]? = some 0x03 ∧
    [0xFF, 0xFF, 0x07, 0xFD, 0x07, 0x03, (0x00 : Byte)][5]? = some 0x03 := by decide

set_option maxRecDepth 8000 in
/-- Shortest and longest covered bytes, and DV-9's flip of bit 0 of the last payload byte. -/
theorem witness_ChecksumBlindSpot : 2 ≤ ([0x60, 0x03] : List Byte).length ∧ (List.replicate 250 (0 : Byte)).length ≤ 250 ∧
    ([0x60, 0x03, 0x34, 0x60] : List Byte)[3]? = some 0x60 ∧ ([0x60, 0x03] : List Byte)[0]? = some 0x60 ∧
    validFrame 0xFE (received 9 0x3E 0xC0 [0x60, 0x03, 0x34, 0x61]) = true ∧
    validFrame 0xFE (received 9 0x3E 0xC0 [0x60, 0x03, 0x34, 0x62]) = false := by decide

theorem witness_EncoderFramesAreValid : State.reset.params.Fixed ∧ ∃ t f, exec (.stat 0xFD) State.reset = .next t ∧ t.out = .frame f :=
  ⟨by decide, _, _, rfl, rfl⟩

theorem witness_WriteRamResult : (torque ∈ Params.vectors.addrTable ∧ torque.space = .ram ∧ torque.writable = true ∧
    torque.w = .one) ∧ (positionKp ∈ Params.vectors.addrTable ∧ positionKp.space = .ram ∧ positionKp.writable = true ∧
    positionKp.w = .two) ∧ State.reset.params = Params.default := ⟨by decide, by decide, rfl⟩

theorem witness_WriteEepResult : (idEep ∈ Params.vectors.addrTable ∧ idEep.space = .eep ∧ idEep.writable = true ∧
    idEep.w = .one) ∧ (positionKpEep ∈ Params.vectors.addrTable ∧ positionKpEep.space = .eep ∧
    positionKpEep.writable = true ∧ positionKpEep.w = .two) := by decide

theorem witness_ReadRamResult : (voltage ∈ Params.vectors.addrTable ∧ voltage.space = .ram ∧ voltage.readable = true ∧
    voltage.w = .one) ∧ (absolutePosition ∈ Params.vectors.addrTable ∧ absolutePosition.space = .ram ∧
    absolutePosition.readable = true ∧ absolutePosition.w = .two) := by decide

theorem witness_ReadEepResult : (baudRate ∈ Params.vectors.addrTable ∧ baudRate.space = .eep ∧ baudRate.readable = true ∧
    baudRate.w = .one) ∧ (positionKpEep ∈ Params.vectors.addrTable ∧ positionKpEep.space = .eep ∧
    positionKpEep.readable = true ∧ positionKpEep.w = .two) := by decide

theorem witness_JogWordBits : (block fun P => { P with dirCwBit := true }).params.jogWordLayout = defaultJogWordLayout := rfl

theorem witness_SetByteBits : (block fun P => { P with hdr0 := 0xAA }).params.setByteLayout = defaultSetByteLayout := rfl

theorem witness_SJogResult : State.reset.params.jogWordLayout = defaultJogWordLayout ∧ (block fun P => { P with sjogBlockWidth := 4 }).params.sjogBlockWidth = 4 ∧
    State.reset.params = Params.default := ⟨rfl, rfl, rfl⟩

theorem witness_IJogResult : (List.replicate 49 (⟨0, .position 0, green, 0⟩ : JogEntry)).length ≤
      State.reset.params.ijogMaxEntries ∧
    State.reset.params.ijogMaxEntries < (List.replicate 50 (⟨0, .position 0, green, 0⟩ : JogEntry)).length := by decide

theorem witness_StatResult : State.reset.params.Fixed ∧ State.reset.params = Params.default := ⟨by decide, rfl⟩

theorem witness_RebootResult : State.reset.params.Fixed ∧ State.reset.params.cksumMask = 0xFE ∧ State.reset.params = Params.default :=
  ⟨by decide, rfl, rfl⟩

theorem witness_AckPolicyResult : Params.vectors.ackPolicyRam = some ⟨.ackPolicyRam, .ram, 0x01, .one, true, true⟩ ∧
    State.reset.params = Params.default := ⟨by decide, rfl⟩

theorem witness_AckPolicyIsWriteRam : (block id).params.wf = true := by decide

theorem witness_RefusedExactlyIllFormed : (Instr.writeRam 1 torque (.byte 0)).isRequest = true ∧
    Instr.wf (block id).params (.writeRam 1 torque (.byte 0)) = true ∧
    Instr.wf (block id).params (.writeRam 1 voltage (.byte 0)) = false := by decide

theorem witness_WidthMismatchExactly : (∃ t, exec (.writeRam 1 torque (.word 0)) State.reset = .next t ∧
    t.out = .error .addressWidthMismatch) ∧ ∃ t, exec .pop State.reset = .next t := ⟨⟨_, rfl, rfl⟩, ⟨_, rfl⟩⟩

/-- An encoder request on a faulted decoder has a next state (log entry 12). -/
theorem witness_EncoderIsStateless : (Instr.stat 1).isRequest = true ∧
    ({ stuck with out := .popped none }).params = stuck.params ∧ ∃ t, exec (.stat 1) stuck = .next t := ⟨rfl, rfl, _, rfl⟩

theorem witness_FeedbRunsResolveLoop : State.reset.params.Fixed ∧ full.params.Fixed ∧ State.reset.faulted = false ∧ full.faulted = false ∧
    State.reset.params.rqDepth = none := ⟨by decide, by decide, rfl, rfl, rfl⟩

theorem witness_ResolveLoopTerminates : Params.vectors.Fixed := by decide

theorem witness_FeedIsFeedbSequence : State.reset.faulted = false ∧
    ∃ u, runAll (List.map Instr.feedb [0xFF, 0x00]) State.reset = .next u := ⟨rfl, _, rfl⟩

/-- The two ways a FEED ends: all bytes taken, and stopped at the overflow with a byte left. -/
theorem witness_FeedAlwaysCompletes : full.faulted = false ∧
    (after (exec (.feed [0x02, 0xFF]) full)).map (fun t => (t.buf, t.faulted)) = some (frameS, true) ∧
    (after (exec (.feed [0x02, 0xFF]) (holding (frameS.take 6) []))).map (fun t => (t.buf, t.faulted)) =
      some ([0xFF], false) := by decide

theorem witness_FragmentationInvariance : State.reset.params.Fixed ∧ State.reset.faulted = false ∧ State.reset.params.rqDepth = none ∧
    atRest Params.vectors State.reset.buf = true ∧ atRest Params.vectors (frameW.take 4) = true := by decide

theorem witness_PopResult : State.reset.faulted = false ∧ State.reset.rq = [] ∧ full.faulted = false ∧
    full.rq = packetR :: [] := by decide

theorem witness_DrainIsRepeatedPop : full.faulted = false ∧ full.rq.length = 1 := by decide

theorem witness_FaultedDecoderIsStuck : stuck.faulted = true := rfl

theorem witness_QueueOverflowEntry : full.params.Fixed ∧ full.faulted = false ∧ atRest full.params full.buf = true ∧
    full.params.rqDepth = some full.rq.length ∧ full.buf ++ [0x02] = frame full.params 0xFD 0x07 [] ∧
    (block id).params.rqDepth = none ∧ (after (exec (.feedb 0) (block id))).isSome = true := by decide

theorem witness_NoiseIsDropped : State.reset.params.Fixed ∧ State.reset.faulted = false ∧ State.reset.buf = [] ∧
    ∀ b ∈ ([0x00, 0x12, 0xFE] : List Byte), b ≠ 0xFF := by decide

theorem witness_HeaderMatchSlides : State.reset.params.Fixed ∧ (0xFE : Byte) ≠ 0xFF ∧ State.reset.faulted = false ∧ State.reset.buf = [] := by decide

theorem witness_BadSizeIsDropped : (holding [0xFF, 0xFF] []).params.Fixed ∧ (holding [0xFF, 0xFF] []).buf = [0xFF, 0xFF] ∧
    (holding [0xFF, 0xFF] []).faulted = false ∧ (0x06 : Byte).toNat < 7 ∧ (0x00 : Byte).toNat < 7 := by decide

/-- DV-10's corrupt frame, complete with its last byte. -/
theorem witness_CorruptFrameIsRescanned : let s := holding [0xFF, 0xFF, 0x09, 0x60, 0x03, 0x3E, 0xC0, 0x34] []
    s.params.Fixed ∧ s.faulted = false ∧ s.params.rqDepth = none ∧
    s.buf ++ [0x62] = 0xFF :: 0xFF :: 0x09 :: [0x60, 0x03, 0x3E, 0xC0, 0x34, 0x62] ∧
    (0x09 : Byte).toNat = ([0x60, 0x03, 0x3E, 0xC0, 0x34, 0x62] : List Byte).length + 3 ∧ 7 ≤ (0x09 : Byte).toNat ∧
    validFrame s.params.cksumMask (s.buf ++ [0x62]) = false := by decide

theorem witness_EveryIdAndCommandAccepted : State.reset.params.Fixed ∧ State.reset.faulted = false ∧ State.reset.buf = [] ∧
    State.reset.params.rqDepth ≠ some State.reset.rq.length ∧ ([0xFF, 0xFF, 0x07] : List Byte).length ≤ 248 := by decide

theorem witness_Resynchronisation : State.reset.params.Fixed ∧ State.reset.faulted = false ∧ State.reset.buf = [] ∧
    State.reset.params.rqDepth = none ∧ (0x00 : Byte) ≠ 0xFF ∧ (0x12 : Byte) ≠ 0xFF ∧ (0x55 : Byte) ≠ 0xFF ∧
    packetR.payload.length ≤ 248 ∧ packetS.payload.length ≤ 248 ∧ packetS.payload.length < 247 := by decide

set_option maxRecDepth 8000 in
/-- DV-21: a run of FF, and the widest hold. -/
theorem witness_FalseCandidateHolds : let s := holding [0xFF, 0xFF, 0xFF] []
    s.params.Fixed ∧ s.faulted = false ∧ s.buf = 0xFF :: 0xFF :: 0xFF :: [] ∧ 7 ≤ (0xFF : Byte).toNat ∧
    s.buf.length + (List.replicate 251 (0 : Byte)).length < (0xFF : Byte).toNat := by decide

theorem witness_DeliveryOrderIsKept : (∃ t, exec (.feedb 0x02) full = .next t) ∧
    ∃ t, exec (.feed [0xFF]) State.reset = .next t := ⟨⟨_, rfl⟩, ⟨_, rfl⟩⟩

theorem witness_SubStateAtRest : Params.vectors.Fixed ∧ atRest Params.vectors [] = true ∧ atRest Params.vectors [0xFF] = true ∧ atRest Params.vectors [0xFF, 0xFF] = true ∧
    atRest Params.vectors (frameW.take 8) = true ∧ atRest Params.vectors [0xFF, 0xFF, 0xFF] = true ∧
    subState Params.vectors [0xFF, 0xFF, 0xFF] = .awaitingBody 252 := by decide

theorem witness_InvalidSkipNeverAtRest : (∃ t, exec (.feedb 0) State.reset = .next t ∧ t.faulted = false) ∧
    subState Params.vectors [0x00] = .invalidSkip ∧ subState Params.vectors [0xFF, 0xFF, 0x06] = .invalidSkip ∧
    subState Params.vectors [0xFF, 0xFF, 0x07, 0xFD, 0x07, 0xFC, 0x03] = .invalidSkip := ⟨⟨_, rfl, rfl⟩, by decide⟩

theorem witness_SubStateTransitions : (holding [] []).params.Fixed ∧ (holding [] []).buf = [] ∧ (holding [0xFF] []).buf = [0xFF] ∧
    (holding [0xFF, 0xFF] []).buf = [0xFF, 0xFF] ∧ 7 ≤ (0x07 : Byte).toNat ∧ (0x06 : Byte).toNat < 7 ∧
    subState Params.vectors (frameS.take 5) = .awaitingBody 2 ∧ subState Params.vectors (frameS.take 6) = .awaitingBody 1 ∧
    atRest Params.vectors (frameS.take 5) = true ∧ atRest Params.vectors (frameS.take 6) = true ∧
    parseFrame 0xFE (frameS.take 6 ++ [0x02]) = some packetS ∧
    (block id).params.rqDepth ≠ some (block id).rq.length := by decide

set_option maxRecDepth 8000 in
/-- DV-14's buffer, the longest at rest. -/
theorem witness_BufferDepthSuffices : let s := holding ([0xFF, 0xFF, 0xFF] ++ List.replicate 251 0) []
    s.params.Fixed ∧ s.faulted = false ∧ atRest s.params s.buf = true ∧ s.buf.length = 254 := by decide

theorem witness_DecoderReadsOnlyFramingAndDepth :
    Params.vectors.hdr0 = (block id).params.hdr0 ∧ Params.vectors.hdr1 = (block id).params.hdr1 ∧
    Params.vectors.minSize = (block id).params.minSize ∧ Instr.pop.isRequest = false ∧
    ({ Params.vectors with cmd := { defaultCmdBytes with stat := 0x55 } }).cksumMask = (block id).params.cksumMask ∧
    ({ Params.vectors with cmd := { defaultCmdBytes with stat := 0x55 } }).rqDepth = (block id).params.rqDepth := by decide

theorem witness_NoImplicitReset : (∃ t, exec (.stat 1) stuck = .next t) ∧ (∃ t, exec .pop full = .next t) ∧
    stuck.faulted = true ∧ Instr.stat 1 ≠ .reset ∧ Instr.pop ≠ .reset := ⟨⟨_, rfl⟩, ⟨_, rfl⟩, rfl, by decide, by decide⟩

/-- The invariant holds of a faulted decoder too, and a step from it exists. -/
theorem witness_InvariantKeptByEveryStep : (State.Inv { stuck with input := [.reset] }) ∧
    ∃ t, step { stuck with input := [.reset] } = .next t := by
  refine ⟨⟨by decide, by decide, by decide, ?_, by decide, fun _ => ⟨by decide, packetS, [], by decide⟩⟩, _, rfl⟩
  intro d hd
  cases hd
  decide

theorem witness_RoundTrip : State.reset.params.Fixed ∧ State.reset.FreshDecoder ∧ State.reset.params.rqDepth ≠ some 0 ∧
    ([0x34, 0x60] : List Byte).length ≤ 248 ∧
    ([[0xFF], [0xFF, 0x09, 0x60], [], [0x03, 0x3E, 0xC0, 0x34, 0x60]] : List (List Byte)).flatten =
      frame State.reset.params 0x60 0x03 [0x34, 0x60] ∧
    ∃ t f, exec (.stat 0xFD) State.reset = .next t ∧ t.out = .frame f :=
  ⟨by decide, ⟨rfl, rfl, rfl⟩, by decide, by decide, by decide, _, _, rfl, rfl⟩

theorem witness_DecodeEncode : Params.vectors.wf = true ∧
    encode Params.vectors (.readEep 0xFD baudRate) = some [0xFF, 0xFF, 0x09, 0xFD, 0x02, 0xF2, 0x0C, 0x04, 0x01] ∧
    encode Params.vectors (.ackPolicy 0xFE 2) = some [0xFF, 0xFF, 0x09, 0xFE, 0x03, 0xF6, 0x08, 0x01, 0x02] := by decide

theorem witness_EncodeDecode : Params.vectors.Fixed ∧ decode Params.vectors (frameW ++ [0x00]) =
    .instr (.writeRam 0x60 torque (.byte 0x60)) [0x00] := by decide

theorem witness_EncodeIsWhatExecAnswers : (Instr.stat 1).isRequest = true ∧
    Instr.wf (block id).params (.writeRam 1 torque (.byte 0)) = true ∧
    Instr.wf (block id).params (.writeRam 1 voltage (.byte 0)) = false := by decide

end Sys2Proof.Tests
end

