-- ==== Sys2Proof/Proofs/StatusAndReset.lean ====
section
/-! The status outputs as functions of the ready queue (10_state R27), the values of a decoder that has received nothing (R30),
and what POP and RESET leave behind (41_decoder R144, R157). -/

namespace Sys2Proof.Machine

theorem State.qEmpty_iff (s : State) : s.qEmpty = true ↔ s.rq = [] := List.isEmpty_iff

theorem State.qHead_eq_getElem? (s : State) : s.qHead = s.rq[0]? := List.head?_eq_getElem?

/-- `q_head` is undriven exactly when `q_empty` is 1 (R27). -/
theorem State.qHead_eq_none_iff (s : State) : s.qHead = none ↔ s.qEmpty = true :=
  List.head?_eq_none_iff.trans s.qEmpty_iff.symm

/-- The rows of R30's table that follow from the decoder's three elements: the status outputs and the sub-state. -/
theorem State.FreshDecoder.outputs {s : State} (h : s.FreshDecoder) (P : Params) :
    s.qEmpty = true ∧ s.qCount = 0 ∧ s.qHead = none ∧ subState P s.buf = .idle := by
  obtain ⟨hbuf, hrq, -⟩ := h
  have hempty : s.qEmpty = true := s.qEmpty_iff.2 hrq
  exact ⟨hempty, by simp [State.qCount, hrq], s.qHead_eq_none_iff.2 hempty, by rw [hbuf]; rfl⟩

theorem State.fresh_freshDecoder (P : Params) : (State.fresh P).FreshDecoder := ⟨rfl, rfl, rfl⟩

/-- RESET is taken in every state, a faulted one too (R157, R189). -/
theorem exec_reset (s : State) : exec .reset s = .next (s.resetDecoder.respond .silent) := rfl

theorem State.resetDecoder_respond_freshDecoder (s : State) (r : Response) :
    (s.resetDecoder.respond r).FreshDecoder := ⟨rfl, rfl, rfl⟩

/-- POP on an empty and on a nonempty queue as one update: it answers `q_head` and keeps the rest of the queue (R144). -/
theorem exec_pop (s : State) :
    exec .pop s = decoderTransaction s { s with rq := s.rq.tail, out := .popped s.qHead } := by
  obtain ⟨params, buf, rq, faulted, input, out⟩ := s
  cases rq with
  | nil => rfl
  | cons p ps => rfl

/-- Settles O2: a created decoder and one after RESET are both fresh, and R30's outputs follow from that. -/
theorem resetValues : Obligations.ResetValues := by
  refine ⟨fun P => ?_, State.fresh_freshDecoder _, fun s => ?_⟩
  · have hfresh := State.fresh_freshDecoder P
    exact ⟨hfresh, hfresh.outputs P⟩
  · have hfresh := s.resetDecoder_respond_freshDecoder .silent
    exact ⟨_, exec_reset s, hfresh, hfresh.outputs _⟩

/-- Settles O5: the outputs by the lemmas on `q_empty` and `q_head`, and POP by its one form `exec_pop`. -/
theorem statusOutputs : Obligations.StatusOutputs := by
  refine ⟨fun s => ⟨?_, rfl, fun hne => ⟨s.qHead_eq_getElem?, fun hnone => ?_⟩, s.qHead_eq_none_iff.2⟩, fun s t h => ?_⟩
  · rw [s.qEmpty_iff, List.length_eq_zero_iff]
  · rw [s.qHead_eq_none_iff.1 hnone] at hne
    cases hne
  · rw [exec_pop] at h
    obtain ⟨-, rfl⟩ := decoderTransaction_eq_next.1 h
    exact ⟨rfl, List.length_tail⟩

end Sys2Proof.Machine
end

/-! The algebra of the checksums (30_encoding R69): the fold is an XOR in any order, the mask may be applied at any step, both
checksums lie inside the mask, and under the mask `0xFE` both are even. -/

namespace Sys2Proof

theorem xorFold_eq_foldr (l : List Byte) : xorFold l = l.foldr (· ^^^ ·) 0 := by
  induction l with
  | nil => rfl
  | cons b bs ih => rw [xorFold, ih, List.foldr_cons]

theorem foldl_xor_eq_xorFold (l : List Byte) : l.foldl (· ^^^ ·) 0 = xorFold l := by
  rw [xorFold_eq_foldr, List.foldl_eq_foldr]

/-- The order of the bytes does not matter (R69). -/
theorem xorFold_perm {l l' : List Byte} (h : l.Perm l') : xorFold l = xorFold l' := by
  rw [xorFold_eq_foldr, xorFold_eq_foldr, h.foldr_op_eq]

/-- Masking distributes over XOR. -/
theorem xor_and_mask (x y mask : Byte) : (x ^^^ y) &&& mask = (x &&& mask) ^^^ (y &&& mask) := by
  ext i hi
  simp [Bool.and_xor_distrib_right]

/-- Two bytes agree inside the mask exactly when their XOR has no bit there. -/
theorem xor_and_mask_eq_zero_iff {x y mask : Byte} : (x ^^^ y) &&& mask = 0 ↔ x &&& mask = y &&& mask := by
  rw [xor_and_mask]
  exact BitVec.xor_eq_zero_iff

/-- Masking at every step of the fold is masking once at the end (R69). -/
theorem foldl_masked_xor (mask : Byte) (l : List Byte) (acc : Byte) :
    l.foldl (fun acc b => (acc ^^^ b) &&& mask) (acc &&& mask) = (acc ^^^ xorFold l) &&& mask := by
  induction l generalizing acc with
  | nil => simp [xorFold]
  | cons b bs ih =>
    have hstep : ((acc &&& mask) ^^^ b) &&& mask = (acc ^^^ b) &&& mask := by
      rw [xor_and_mask, xor_and_mask, BitVec.and_assoc, BitVec.and_self]
    rw [List.foldl_cons, hstep, ih, xorFold, BitVec.xor_assoc]

/-- `C1` is the masked fold of the covered bytes (R66). -/
theorem checksum1_eq_xorFold (mask size id cmd : Byte) (payload : List Byte) :
    checksum1 mask size id cmd payload = xorFold (size :: id :: cmd :: payload) &&& mask := by
  simp only [checksum1, xorFold, BitVec.xor_assoc]

theorem and_mask_and_not_mask (x mask : Byte) : (x &&& mask) &&& ~~~mask = 0 := by
  rw [BitVec.and_assoc, BitVec.and_not_self]
  exact BitVec.and_zero

/-- A masked byte and its masked complement together make up the mask, as each bit of the byte shows (R69). -/
theorem and_mask_xor_checksum2 (x mask : Byte) : (x &&& mask) ^^^ checksum2 mask (x &&& mask) = mask := by
  ext i hi
  cases hx : x[i] <;> simp [checksum2, hx]

/-- The mask `0xFE` clears bit 0 (R69). -/
theorem getLsbD_zero_and_0xFE (x : Byte) : (x &&& 0xFE).getLsbD 0 = false := by
  simp

theorem ne_0xFF_of_even {x : Byte} (h : x.getLsbD 0 = false) : x ≠ 0xFF := by
  rintro rfl
  cases h

/-- Under `0xFE` bytes 5 and 6 of a valid frame are even (R69). -/
theorem even_checksum_bytes {f : List Byte} {b : Byte} (h : validFrame 0xFE f = true)
    (hb : f[5]? = some b ∨ f[6]? = some b) : b.getLsbD 0 = false := by
  obtain ⟨p, hp⟩ := Option.isSome_iff_exists.1 h
  obtain ⟨h0, h1, size, k1, rfl, hk1⟩ := parseFrame_eq_some hp
  rcases hb with hb | hb
  · obtain rfl : k1 = b := Option.some.inj hb
    rw [hk1]
    exact getLsbD_zero_and_0xFE _
  · obtain rfl : checksum2 0xFE k1 = b := Option.some.inj hb
    exact getLsbD_zero_and_0xFE _

/-- Settles O7: order and per-step masking by `xorFold_perm` and `foldl_masked_xor`, the bits by the mask both checksums end
with. -/
theorem checksumAlgebra : Obligations.ChecksumAlgebra := by
  refine ⟨fun mask size id cmd payload l hl => ?_, fun mask size id cmd payload => ?_, fun size id cmd payload => ?_,
    fun f b hodd hb => ?_⟩
  · rw [checksum1_eq_xorFold, ← xorFold_perm hl]
    exact ⟨by rw [foldl_xor_eq_xorFold], by simpa using foldl_masked_xor mask l 0⟩
  · exact ⟨and_mask_and_not_mask _ _, and_mask_and_not_mask _ _, and_mask_xor_checksum2 _ _⟩
  · have h1 : (checksum1 0xFE size id cmd payload).getLsbD 0 = false := getLsbD_zero_and_0xFE _
    have h2 : (checksum2 0xFE (checksum1 0xFE size id cmd payload)).getLsbD 0 = false := getLsbD_zero_and_0xFE _
    exact ⟨h1, h2, ne_0xFF_of_even h1, ne_0xFF_of_even h2⟩
  · rw [← Bool.not_eq_true]
    intro hvalid
    rw [even_checksum_bytes hvalid hb] at hodd
    cases hodd

end Sys2Proof

/-! What the checksum detects (30_encoding R70): a received frame is accepted exactly when the XOR of the changes of its covered
bytes is zero inside the mask; a flip changes the fold by itself, so one flip outside the mask and two equal flips go unseen. -/

namespace Sys2Proof.Machine

/-- A received frame is read by its covered bytes: id, command and payload, with the two checksum conditions (R68). -/
theorem parseFrame_received (mask size k1 k2 id cmd : Byte) (payload : List Byte) :
    parseFrame mask (received size k1 k2 (id :: cmd :: payload)) =
      if k1 = (size ^^^ xorFold (id :: cmd :: payload)) &&& mask ∧ k2 = checksum2 mask k1
      then some ⟨id, cmd, payload⟩ else none := by
  have hread := parseFrame_cons mask 0xFF 0xFF size id cmd k1 k2 payload
  rw [checksum1_eq_xorFold, xorFold] at hread
  exact hread

/-- A frame sent with the covered bytes `cov` and received with others, its size and checksum bytes intact, is read as the
received content exactly when all changes cancel inside the mask (R70). -/
theorem parseFrame_received_intact (mask size : Byte) (cov : List Byte) (id cmd : Byte) (payload : List Byte) :
    parseFrame mask (received size ((size ^^^ xorFold cov) &&& mask) (checksum2 mask ((size ^^^ xorFold cov) &&& mask))
        (id :: cmd :: payload)) =
      if (xorFold cov ^^^ xorFold (id :: cmd :: payload)) &&& mask = 0 then some ⟨id, cmd, payload⟩ else none := by
  simp only [parseFrame_received, xor_and_mask_eq_zero_iff, xor_and_mask size, BitVec.xor_right_inj, and_true]

/-- Covered bytes are an id, a command and a payload (R60). -/
theorem exists_eq_id_cmd_payload {cov : List Byte} (h : 2 ≤ cov.length) : ∃ id cmd payload, cov = id :: cmd :: payload :=
  match cov, h with
  | id :: cmd :: payload, _ => ⟨id, cmd, payload, rfl⟩

/-- Flipping bits of one byte flips the same bits of the fold. -/
theorem xorFold_set_flip {l : List Byte} {k : Nat} {b : Byte} (flip : Byte) (h : l[k]? = some b) :
    xorFold (l.set k (b ^^^ flip)) = xorFold l ^^^ flip := by
  induction l generalizing k with
  | nil => cases h
  | cons x xs ih =>
    cases k with
    | zero =>
      obtain rfl : x = b := Option.some.inj h
      simp only [List.set_cons_zero, xorFold]
      ac_rfl
    | succ k =>
      have hk : xs[k]? = some b := h
      simp only [List.set_cons_succ, xorFold, ih hk, BitVec.xor_assoc]

/-- Settles O8: both frames are read by `parseFrame_received_intact`, and the undetected changes are flips of the fold. -/
theorem checksumBlindSpot : Obligations.ChecksumBlindSpot := by
  refine ⟨fun mask cov cov' hmin _ hlen => ?_, fun cov k b hb => ?_, fun mask cov j k b c flip hjk hb hc => ?_⟩
  · intro size c1 f
    obtain ⟨id, cmd, payload, hcov⟩ := exists_eq_id_cmd_payload hmin
    obtain ⟨id', cmd', payload', rfl⟩ := exists_eq_id_cmd_payload (hlen ▸ hmin)
    have hf : parseFrame mask f = _ := parseFrame_received_intact mask size cov id' cmd' payload'
    have hsent : (xorFold cov ^^^ xorFold (id :: cmd :: payload)) &&& mask = 0 := by
      rw [hcov, BitVec.xor_self]
      exact BitVec.zero_and
    refine ⟨?_, ?_, fun hvalid => ⟨id', cmd', rfl, ?_⟩⟩
    · have hread := parseFrame_received_intact mask size cov id cmd payload
      rw [if_pos hsent, ← hcov] at hread
      exact Option.isSome_of_eq_some hread
    · rw [validFrame, hf, Option.isSome_ite]
    · rw [validFrame, hf, Option.isSome_ite] at hvalid
      rw [hf, if_pos hvalid]
      rfl
  · rw [xorFold_set_flip 1 hb, ← BitVec.xor_assoc, BitVec.xor_self, BitVec.zero_xor]
    decide
  · have hc' : (cov.set j (b ^^^ flip))[k]? = some c := by rw [List.getElem?_set_ne hjk, hc]
    rw [xorFold_set_flip flip hc', xorFold_set_flip flip hb, BitVec.xor_assoc, BitVec.xor_self, BitVec.xor_zero,
      BitVec.xor_self]
    exact BitVec.zero_and

end Sys2Proof.Machine

/-! The typed interface of the catalog operations (30_encoding R87), and AckPolicy as a write of the catalog's register
(R79). -/

namespace Sys2Proof.Machine

/-- What the boundary lets in has a next state, and what it does not is refused: an encoder transaction has no third outcome
(R13, R102). -/
theorem encoderTransaction_outcome_iff {bad : Option Refusal} {p : Prop} (h : bad = none ↔ p) (id : Byte) (op : Serialized)
    (s : State) : ((∃ t, encoderTransaction bad id op s = .next t) ↔ p) ∧
      ((∃ r, encoderTransaction bad id op s = .refused r) ↔ ¬ p) := by
  rw [← h]
  cases bad <;> simp [encoderTransaction]

/-- A written address is let in by its table, its space and its flag (R87). -/
theorem checkWrite_eq_none_iff_mem (P : Params) (sp : Space) (a : CatalogAddr) :
    checkWrite P sp a = none ↔ a ∈ P.addrTable ∧ a.space = sp ∧ a.writable = true := by
  simp only [checkWrite_eq_none, CatalogAddr.inSpace, Bool.and_eq_true, decide_eq_true_eq, and_assoc]

/-- A read address is let in by its table, its space and its flag (R87). -/
theorem checkRead_eq_none_iff_mem (P : Params) (sp : Space) (a : CatalogAddr) :
    checkRead P sp a = none ↔ a ∈ P.addrTable ∧ a.space = sp ∧ a.readable = true := by
  simp only [checkRead_eq_none, CatalogAddr.inSpace, Bool.and_eq_true, decide_eq_true_eq, and_assoc]

/-- Settles O22: each of the four operations is an encoder transaction behind its check of the address. -/
theorem requestInterface : Obligations.RequestInterface := by
  intro s id a
  have hwrite sp := encoderTransaction_outcome_iff (s := s) (id := id) (checkWrite_eq_none_iff_mem s.params sp a)
  have hread sp := encoderTransaction_outcome_iff (s := s) (id := id) (checkRead_eq_none_iff_mem s.params sp a)
  obtain ⟨hramNext, hramRefused⟩ := hread .ram (serializeReadRam s.params a)
  obtain ⟨heepNext, heepRefused⟩ := hread .eep (serializeReadEep s.params a)
  exact ⟨fun v => hwrite .ram (serializeWriteRam s.params a v), fun v => hwrite .eep (serializeWriteEep s.params a v),
    hramNext, hramRefused, heepNext, heepRefused⟩

/-- A well-formed block has an ack policy register: a writable 1-byte RAM address of the catalog, by its name (R79). -/
theorem ackPolicyRam_of_wf {P : Params} (h : P.wf = true) : ∃ a, P.ackPolicyRam = some a ∧ a.name = .ackPolicyRam ∧
    a ∈ P.addrTable ∧ a.space = .ram ∧ a.writable = true ∧ a.w = .one := by
  obtain ⟨-, -, -, -, -, hok, -⟩ := P.wf_iff.1 h
  cases ha : P.ackPolicyRam with
  | none => simp [Params.ackPolicyOk, ha] at hok
  | some a =>
    simp only [Params.ackPolicyOk, ha, Bool.and_eq_true, decide_eq_true_eq] at hok
    obtain ⟨⟨hspace, hwritable⟩, hw⟩ := hok
    exact ⟨a, rfl, by simpa using List.find?_some ha, List.mem_of_find?_eq_some ha, hspace, hwritable, hw⟩

/-- On a 1-byte register, AckPolicy is serialized as the 1-byte write (R79). -/
theorem serializeAckPolicy_eq_serializeWriteRam {P : Params} {a : CatalogAddr} (hw : a.w = .one) (p : Byte) :
    serializeAckPolicy P a p = serializeWriteRam P a (.byte p) := by
  simp [serializeAckPolicy, serializeWriteRam, serializeWrite, valueWidth, leBytes, hw]

/-- Settles O21: both requests pass the boundary and are serialized alike. -/
theorem ackPolicyIsWriteRam : Obligations.AckPolicyIsWriteRam := by
  intro s id p hwf
  obtain ⟨a, ha, hname, hmem, hspace, hwritable, hw⟩ := ackPolicyRam_of_wf hwf
  have hcheck : checkWrite s.params .ram a = none := (checkWrite_eq_none_iff_mem _ _ _).2 ⟨hmem, hspace, hwritable⟩
  refine ⟨a, ha, hname, ?_⟩
  simp only [exec, execAckPolicy, execWriteRam, ha, hcheck, serializeAckPolicy_eq_serializeWriteRam hw]

end Sys2Proof.Machine

/-! The jog word and the SET byte of the default layouts, bit by bit (30_encoding R91, R93). -/

namespace Sys2Proof

/-- A vector wide enough for the list of bits it is written from has exactly these bits. -/
theorem getLsbD_natOfBits_of_length_le {w : Nat} {l : List Bool} (hl : l.length ≤ w) (i : Nat) :
    (BitVec.ofNat w (natOfBits l)).getLsbD i = l.getD i false := by
  rw [getLsbD_natOfBits]
  by_cases hi : i < w
  · simp [hi]
  · simp [hi, List.getElem?_eq_none (show l.length ≤ i by omega)]

/-- The default layout passes a position unchanged (R91). -/
theorem jogWord_position_default {P : Params} (h : P.jogWordLayout = defaultJogWordLayout) (p : Word) :
    jogWord P (.position p) = p := by
  rw [jogWord, h, defaultJogWordLayout, List.map_map]
  exact ofNat_natOfBits_range p _ fun _ _ => rfl

/-- The bits of a speed word in the default layout: the speed, the direction bit and a zero (R91). -/
theorem getLsbD_jogWord_speed_default {P : Params} (h : P.jogWordLayout = defaultJogWordLayout) (v : BitVec 14)
    (dir : Direction) (i : Nat) : (jogWord P (.speed v dir)).getLsbD i =
      ((List.range 14).map v.getLsbD ++ [dirBit P dir, false]).getD i false := by
  rw [jogWord, h, getLsbD_natOfBits_of_length_le (by simp [defaultJogWordLayout])]
  rfl

/-- Settles O10: the position whole, the speed word by its list of bits. -/
theorem jogWordBits : Obligations.JogWordBits := by
  refine fun P h => ⟨jogWord_position_default h, fun v dir => ?_⟩
  have hbit := getLsbD_jogWord_speed_default h v dir
  refine ⟨BitVec.eq_of_getLsbD_eq fun i hi => ?_, hbit 15, ?_, ?_⟩
  · rw [BitVec.getLsbD_extractLsb', Nat.zero_add, hbit]
    simp [List.getElem?_append_left, hi]
  · rintro rfl
    exact hbit 14
  · rintro rfl
    exact hbit 14

/-- The bits of the SET byte in the default layout (R93). -/
theorem getLsbD_setByte_default {P : Params} (h : P.setByteLayout = defaultSetByteLayout) (mode : JogMode) (color : JogColor)
    (i : Nat) : (setByte P mode color).getLsbD i =
      [false, modeBit mode, color.green, color.blue, color.red, false, false, false].getD i false := by
  rw [setByte, h, getLsbD_natOfBits_of_length_le (by simp [defaultSetByteLayout])]
  rfl

/-- Settles O11: each bit by the list of bits of the SET byte. -/
theorem setByteBits : Obligations.SetByteBits := by
  intro P color mode h
  have hbit := getLsbD_setByte_default h mode color
  refine ⟨hbit 0, ?_, ?_, hbit 2, hbit 3, hbit 4, hbit 5, hbit 6, hbit 7⟩
  · rintro p rfl
    exact hbit 1
  · rintro v dir rfl
    exact hbit 1

end Sys2Proof

/-! The request of a transaction and what exec answers to it (40_encoder R102): a serialized request is answered at the output
port, and whoever answers with a frame is a serialized request. -/

namespace Sys2Proof.Machine

open Sys2Proof.Laws.PayloadBound

/-- Only encoder requests are serialized: a port transaction has no encoding. -/
theorem isRequest_of_serialize {P : Params} {i : Instr} {x : Byte × Serialized} (h : serialize P i = some x) :
    i.isRequest = true := by
  obtain ⟨-, hops⟩ := serialize_eq_some.1 h
  cases i with
  | feedb b => cases hops
  | feed bs => cases hops
  | pop => cases hops
  | drain => cases hops
  | reset => cases hops
  | _ => rfl

/-- A serialized request is answered with its frame or its error, and nothing but the output port changes (R102, R104). -/
theorem exec_of_serialize {i : Instr} {s : State} {id : Byte} {op : Serialized} (h : serialize s.params i = some (id, op)) :
    exec i s = .next (s.respond (buildResponse s.params id op)) := by
  obtain ⟨id', op', hser, hexec⟩ := exec_request (isRequest_of_serialize h) (serialize_eq_some.1 h).1
  obtain ⟨rfl, rfl⟩ : id' = id ∧ op' = op := by simpa [h, eq_comm] using hser
  exact hexec

/-- A command byte and a payload are answered with their frame (R102). -/
theorem exec_of_serialize_ok {i : Instr} {s : State} {id cmd : Byte} {payload : List Byte}
    (h : serialize s.params i = some (id, .ok (cmd, payload))) :
    exec i s = .next (s.respond (.frame (frame s.params id cmd payload))) := exec_of_serialize h

/-- An encoded request is answered with its frame. -/
theorem exec_of_encode {i : Instr} {s : State} {f : List Byte} (h : encode s.params i = some f) :
    exec i s = .next (s.respond (.frame f)) := by
  unfold encode at h
  split at h
  · rename_i hser
    cases h
    exact exec_of_serialize_ok hser
  · cases h

/-- A transaction with a next state is one the interface carries (R13, R87). -/
theorem wf_of_exec_eq_next {i : Instr} {s t : State} (h : exec i s = .next t) : i.wf s.params = true := by
  cases i with
  | writeRam id a v => exact checkWrite_eq_none.1 (encoderTransaction_eq_next.1 h).1
  | writeEep id a v => exact checkWrite_eq_none.1 (encoderTransaction_eq_next.1 h).1
  | readRam id a => exact checkRead_eq_none.1 (encoderTransaction_eq_next.1 h).1
  | readEep id a => exact checkRead_eq_none.1 (encoderTransaction_eq_next.1 h).1
  | iJog id es => exact decide_eq_true (checkEntries_eq_none.1 (encoderTransaction_eq_next.1 h).1)
  | ackPolicy id p =>
    cases ha : s.params.ackPolicyRam with
    | none => simp [exec, execAckPolicy, ha] at h
    | some a => exact Option.isSome_of_eq_some ha
  | _ => rfl

/-- A port transaction never answers with a frame (R140). -/
theorem out_ne_frame_of_port {i : Instr} {s t : State} (hi : i.isRequest = false) (h : exec i s = .next t)
    (f : List Byte) : t.out ≠ .frame f := by
  cases i with
  | feedb b => rw [(decoderTransaction_eq_next.1 h).2]; exact Response.noConfusion
  | feed bs => rw [(decoderTransaction_eq_next.1 h).2]; exact Response.noConfusion
  | pop => rw [exec_pop] at h; rw [(decoderTransaction_eq_next.1 h).2]; exact Response.noConfusion
  | drain => rw [(decoderTransaction_eq_next.1 h).2]; exact Response.noConfusion
  | reset => cases h; exact Response.noConfusion
  | _ => cases hi

/-- Every frame answered is the framer core's frame of what the request serializes to (R102). -/
theorem serialize_of_exec_frame {i : Instr} {s t : State} {f : List Byte} (h : exec i s = .next t) (hf : t.out = .frame f) :
    ∃ id cmd payload, serialize s.params i = some (id, .ok (cmd, payload)) ∧ f = frame s.params id cmd payload := by
  cases hi : i.isRequest with
  | false => exact absurd hf (out_ne_frame_of_port hi h f)
  | true =>
    obtain ⟨id, op, hser, hexec⟩ := exec_request hi (wf_of_exec_eq_next h)
    obtain rfl : t = s.respond (buildResponse s.params id op) := by simpa [h] using hexec
    cases op with
    | error e => cases hf
    | ok x =>
      cases hf
      exact ⟨id, x.1, x.2, hser, rfl⟩

/-- In a block with the values R8 fixes, the payload of a serialized request fits the size byte (R65). -/
theorem payload_length_le_of_serialize {P : Params} {i : Instr} {id cmd : Byte} {payload : List Byte} (hP : P.Fixed)
    (h : serialize P i = some (id, .ok (cmd, payload))) : payload.length ≤ maxPayload := by
  obtain ⟨-, -, -, -, hmax, -⟩ := hP
  exact (Laws.PayloadBound.all i P id cmd payload hmax.le h).1

/-- A built frame has the properties of R114. -/
theorem wellFramed_frame {P : Params} (hP : P.Fixed) (id cmd : Byte) {payload : List Byte}
    (hlen : payload.length ≤ maxPayload) : WellFramed P.cksumMask (frame P id cmd payload) := by
  obtain ⟨h0, h1, hfixed, -⟩ := hP
  have hbound : payload.length ≤ 248 := hlen
  refine ⟨congrArg some h0, congrArg some h1, ?_, ?_, ?_, ?_⟩
  · rw [frame_length]
    exact congrArg some (sizeByte_toNat hfixed hlen)
  · rw [frame_length]; omega
  · rw [frame_length]; omega
  · rw [validFrame, parseFrame_frame]; rfl

/-- Settles O9: every frame answered is a built frame with a payload that fits. -/
theorem encoderFramesAreValid : Obligations.EncoderFramesAreValid := by
  intro i s t f hP h hf
  obtain ⟨id, cmd, payload, hser, rfl⟩ := serialize_of_exec_frame h hf
  exact wellFramed_frame hP id cmd (payload_length_le_of_serialize hP hser)

/-- Settles O6: the bytes are the definition's, the size byte by its bound and `C1` by the order-free fold. -/
theorem framerCore : Obligations.FramerCore := by
  intro P id cmd payload hP hlen
  obtain ⟨h0, h1, hfixed, -⟩ := hP
  have hframe : frame P id cmd payload = [0xFF, 0xFF, sizeByte P payload, id, cmd,
      checksum1 P.cksumMask (sizeByte P payload) id cmd payload,
      checksum2 P.cksumMask (checksum1 P.cksumMask (sizeByte P payload) id cmd payload)] ++ payload := by
    rw [frame, h0, h1]
  refine ⟨_, _, _, hframe, sizeByte_toNat hfixed hlen, ?_, rfl⟩
  rw [foldl_xor_eq_xorFold]
  rfl

end Sys2Proof.Machine

/-! The round trip (40_encoder R115): a frame is one packet for the scan and no beginning of it is, so that a decoder keeps the
bytes until the last one and then delivers the packet, whatever the chunks. -/

namespace Sys2Proof.Machine

/-- A built frame at the front of the buffer is a packet (R101, R150). -/
theorem scan_frame {P : Params} (hP : P.Fixed) (id cmd : Byte) {payload : List Byte} (rest : List Byte)
    (hlen : payload.length ≤ maxPayload) : scan P (frame P id cmd payload ++ rest) = .packet ⟨id, cmd, payload⟩ rest := by
  obtain ⟨-, -, hfixed, hmin, -⟩ := hP
  have hsize := sizeByte_toNat hfixed hlen
  exact (scan_candidate id cmd _ _ rest (by omega) hsize).trans (if_pos ⟨rfl, rfl⟩)

/-- The beginning of a buffer at rest is at rest: a decision once made would stand (R143). -/
theorem atRest_of_append {P : Params} {a b : List Byte} (h : atRest P (a ++ b) = true) : atRest P a = true := by
  rw [← scan_wait_iff] at h ⊢
  by_contra hne
  rw [scan_append b hne] at h
  cases ha : scan P a with
  | wait => exact hne ha
  | _ => rw [ha] at h; cases h

/-- An incomplete frame is at rest: a decision on it would stand for the whole frame and leave the missing bytes over. -/
theorem atRest_of_append_eq_frame {P : Params} (hP : P.Fixed) {id cmd : Byte} {payload a b : List Byte}
    (hlen : payload.length ≤ maxPayload) (h : a ++ b = frame P id cmd payload) (hb : b ≠ []) : atRest P a = true := by
  rw [← scan_wait_iff]
  by_contra hne
  have hwhole := scan_append b hne
  rw [h, ← List.append_nil (frame P id cmd payload), scan_frame hP id cmd [] hlen] at hwhole
  cases ha : scan P a with
  | packet p r =>
    rw [ha] at hwhole
    simp only [Scan.append, Scan.packet.injEq] at hwhole
    exact hb (List.append_eq_nil_iff.1 hwhole.2.symm).2
  | _ => rw [ha] at hwhole; cases hwhole

/-- Bytes that leave the buffer at rest are appended and nothing else happens (R146). -/
theorem State.feedBytes_of_atRest {s : State} {bs : List Byte} (hs : s.faulted = false)
    (h : atRest s.params (s.buf ++ bs) = true) : s.feedBytes bs = s.setBuf (s.buf ++ bs) := by
  induction bs generalizing s with
  | nil => rw [List.append_nil]; rfl
  | cons b bs ih =>
    rw [List.append_cons] at h
    have hbyte : s.feedByte b = s.setBuf (s.buf ++ [b]) :=
      State.resolve_wait ((scan_wait_iff _ _).2 (atRest_of_append h))
    simpa [State.feedBytes, hbyte, hs] using ih (s := s.setBuf (s.buf ++ [b])) hs h

/-- A FEED of two parts is the second part after the first, unless the decoder faulted (R142, R186). -/
theorem State.feedBytes_append (s : State) (a b : List Byte) (hs : s.faulted = false) :
    s.feedBytes (a ++ b) = if (s.feedBytes a).faulted then s.feedBytes a else (s.feedBytes a).feedBytes b := by
  induction a generalizing s with
  | nil => simp [State.feedBytes, hs]
  | cons c a ih =>
    cases hc : (s.feedByte c).faulted with
    | true => simp [State.feedBytes, hc]
    | false => simpa [State.feedBytes, hc] using ih (s.feedByte c) hc

/-- A decoder with an empty buffer and room takes a whole frame as its packet (R115). -/
theorem State.feedBytes_frame_eq_enqueue {s : State} (hP : s.params.Fixed) (id cmd : Byte) {payload : List Byte}
    (hlen : payload.length ≤ maxPayload) (hs : s.faulted = false) (hbuf : s.buf = []) (hroom : s.queueFull = false) :
    s.feedBytes (frame s.params id cmd payload) = s.enqueue ⟨id, cmd, payload⟩ := by
  obtain ⟨start, last, hsplit⟩ : ∃ start last, frame s.params id cmd payload = start ++ [last] :=
    ⟨_, _, (List.dropLast_append_getLast (List.cons_ne_nil _ _)).symm⟩
  have hrest : atRest s.params start = true :=
    atRest_of_append_eq_frame hP hlen hsplit.symm (List.cons_ne_nil _ _)
  have hstart : s.feedBytes start = s.setBuf start := by
    simpa [hbuf] using State.feedBytes_of_atRest (bs := start) hs (by simpa [hbuf] using hrest)
  have hscan : scan s.params (start ++ [last]) = .packet ⟨id, cmd, payload⟩ [] := by
    rw [← hsplit, ← List.append_nil (frame _ _ _ _)]
    exact scan_frame hP id cmd [] hlen
  have hlast : (s.setBuf start).feedByte last = s.enqueue ⟨id, cmd, payload⟩ := by
    have hresolve := State.resolve_packet (s := s.setBuf (start ++ [last])) hscan
    rw [State.queueFull_setBuf, hroom] at hresolve
    refine hresolve.trans ((State.resolve_wait rfl).trans ?_)
    rw [← hbuf]
    rfl
  rw [hsplit, State.feedBytes_append _ _ _ hs, hstart]
  simp [State.feedBytes, hs, hlast]

/-- The output port has no part in resolve. -/
theorem State.resolve_respond (s : State) (r : Response) : (s.respond r).resolve = s.resolve.respond r := by
  refine State.resolve_induction (motive := fun s t => (s.respond r).resolve = t.respond r) ?_ ?_ ?_ ?_ s
  · intro s h
    exact State.resolve_wait (s := s.respond r) h
  · intro s rest t h ih
    exact (State.resolve_drops (s := s.respond r) h).trans ih
  · intro s p rest t h hq ih
    rw [State.resolve_packet (s := s.respond r) h, State.queueFull_respond, hq]
    exact ih
  · intro s p rest h hq
    rw [State.resolve_packet (s := s.respond r) h, State.queueFull_respond, hq]
    rfl

/-- The output port has no part in a FEED. -/
theorem State.feedBytes_respond (s : State) (r : Response) (bs : List Byte) :
    (s.respond r).feedBytes bs = (s.feedBytes bs).respond r := by
  induction bs generalizing s with
  | nil => rfl
  | cons b bs ih =>
    have hbyte : (s.respond r).feedByte b = (s.feedByte b).respond r := State.resolve_respond (s.setBuf (s.buf ++ [b])) r
    simp only [State.feedBytes, hbyte, State.respond_faulted, ih]
    split <;> rfl

theorem exec_feed {s : State} (bs : List Byte) (hs : s.faulted = false) :
    exec (.feed bs) s = .next ((s.feedBytes bs).respond .silent) := decoderTransaction_eq_next.2 ⟨hs, rfl⟩

/-- Chunks come to a FEED of all their bytes at once, where that does not fault (R143). -/
theorem feedChunks_eq_feedBytes {s : State} {chunks : List (List Byte)} (hs : s.faulted = false)
    (h : (s.feedBytes chunks.flatten).faulted = false) :
    ∃ o, feedChunks chunks s = .next ((s.feedBytes chunks.flatten).respond o) := by
  induction chunks generalizing s with
  | nil => exact ⟨s.out, rfl⟩
  | cons c chunks ih =>
    rw [List.flatten_cons, State.feedBytes_append _ _ _ hs] at h ⊢
    cases hc : (s.feedBytes c).faulted with
    | true => simp [hc] at h
    | false =>
      simp only [hc, Bool.false_eq_true, if_false] at h ⊢
      obtain ⟨o, ho⟩ := ih (s := (s.feedBytes c).respond .silent) hc (by rwa [State.feedBytes_respond])
      refine ⟨o, ?_⟩
      rw [feedChunks, List.map_cons, runAll, exec_feed c hs]
      rw [State.feedBytes_respond] at ho
      exact ho

/-- A fresh decoder with room that is fed a frame in chunks holds exactly its packet (R115). -/
theorem feedChunks_frame {s : State} {id cmd : Byte} {payload : List Byte} {chunks : List (List Byte)}
    (hP : s.params.Fixed) (hfresh : s.FreshDecoder) (hroom : s.params.rqDepth ≠ some 0) (hlen : payload.length ≤ maxPayload)
    (hchunks : chunks.flatten = frame s.params id cmd payload) :
    ∃ t, feedChunks chunks s = .next t ∧ t.rq = [⟨id, cmd, payload⟩] ∧ t.buf = [] ∧ t.faulted = false := by
  obtain ⟨hbuf, hrq, hs⟩ := hfresh
  have hfull : s.queueFull = false := by
    rwa [← Bool.not_eq_true, State.queueFull_iff, hrq]
  have hfeed := State.feedBytes_frame_eq_enqueue hP id cmd hlen hs hbuf hfull
  rw [← hchunks] at hfeed
  obtain ⟨o, ho⟩ := feedChunks_eq_feedBytes hs (by rwa [hfeed])
  rw [hfeed] at ho
  exact ⟨_, ho, by simp [hrq], hbuf, hs⟩

/-- Settles O56: both parts by `feedChunks_frame`, the second with the frame that the operation serialized to. -/
theorem roundTrip : Obligations.RoundTrip := by
  refine ⟨fun s id cmd payload chunks hP hfresh hroom hlen hchunks => feedChunks_frame hP hfresh hroom hlen hchunks,
    fun i e e' s f chunks hexec hout hP hfresh hparams hroom hchunks => ?_⟩
  obtain ⟨id, cmd, payload, hser, rfl⟩ := serialize_of_exec_frame hexec hout
  rw [← hparams] at hser hchunks ⊢
  obtain ⟨t, ht⟩ := feedChunks_frame hP hfresh hroom (payload_length_le_of_serialize hP hser) hchunks
  exact ⟨t, id, cmd, payload, ht.1, hser, ht.2⟩

end Sys2Proof.Machine

/-! The nine encoder operations (40_encoder R105 to R113): the serialized bytes of each, and the next state that follows from
them by `exec_of_serialize`; the rules' examples are the encoder's frames for the default parameters. -/

namespace Sys2Proof.Machine

open Sys2Proof.Laws.PayloadBound

/-- A 1-byte write to a 1-byte register (R75). -/
theorem serializeWrite_byte {P : Params} {a : CatalogAddr} (hw : a.w = .one) (cmd b : Byte) :
    serializeWrite P cmd a (.byte b) = .ok (cmd, [a.off] ++ (if P.writeLenField then [1] else []) ++ [b]) := by
  rw [serializeWrite, lengthField, hw]
  rfl

/-- A 2-byte write to a 2-byte register, low byte first (R46, R75). -/
theorem serializeWrite_word {P : Params} {a : CatalogAddr} (hw : a.w = .two) (cmd : Byte) (v : Word) :
    serializeWrite P cmd a (.word v) =
      .ok (cmd, [a.off] ++ (if P.writeLenField then [2] else []) ++ [v.extractLsb' 0 8, v.extractLsb' 8 8]) := by
  rw [serializeWrite, lengthField, hw]
  rfl

/-- A write of the wrong width (R105, R181). -/
theorem serializeWrite_mismatch {P : Params} {a : CatalogAddr} {v : WriteValue} (h : valueWidth v ≠ a.w) (cmd : Byte) :
    serializeWrite P cmd a v = .error .addressWidthMismatch := if_neg h

/-- The payload of a read is the offset and the width in bytes (R76). -/
theorem readPayload_of_width {a : CatalogAddr} {w : Width} (hw : a.w = w) : readPayload a = [a.off, widthByte w] := by
  rw [readPayload, hw]

/-- Membership of the catalog and of the space, as the interface's check (R87). -/
theorem inSpace_of_mem {P : Params} {sp : Space} {a : CatalogAddr} (hmem : a ∈ P.addrTable) (hsp : a.space = sp) :
    a.inSpace P sp = true := by
  simp [CatalogAddr.inSpace, hmem, hsp]

/-- WriteRam of an admitted address (R105). -/
theorem exec_writeRam {s : State} {a : CatalogAddr} (hmem : a ∈ s.params.addrTable) (hsp : a.space = .ram)
    (hw : a.writable = true) (id : Byte) (v : WriteValue) : exec (.writeRam id a v) s =
      .next (s.respond (buildResponse s.params id (serializeWrite s.params s.params.cmd.ramWrite a v))) :=
  exec_of_serialize (serialize_eq_some.2 ⟨Bool.and_eq_true_iff.2 ⟨inSpace_of_mem hmem hsp, hw⟩, rfl⟩)

/-- WriteEep of an admitted address (R106). -/
theorem exec_writeEep {s : State} {a : CatalogAddr} (hmem : a ∈ s.params.addrTable) (hsp : a.space = .eep)
    (hw : a.writable = true) (id : Byte) (v : WriteValue) : exec (.writeEep id a v) s =
      .next (s.respond (buildResponse s.params id (serializeWrite s.params s.params.cmd.eepWrite a v))) :=
  exec_of_serialize (serialize_eq_some.2 ⟨Bool.and_eq_true_iff.2 ⟨inSpace_of_mem hmem hsp, hw⟩, rfl⟩)

/-- ReadRam of an admitted address (R107). -/
theorem exec_readRam {s : State} {a : CatalogAddr} (hmem : a ∈ s.params.addrTable) (hsp : a.space = .ram)
    (hr : a.readable = true) (id : Byte) : exec (.readRam id a) s =
      .next (s.respond (.frame (frame s.params id s.params.cmd.ramRead (readPayload a)))) :=
  exec_of_serialize_ok (serialize_eq_some.2 ⟨Bool.and_eq_true_iff.2 ⟨inSpace_of_mem hmem hsp, hr⟩, rfl⟩)

/-- ReadEep of an admitted address (R108). -/
theorem exec_readEep {s : State} {a : CatalogAddr} (hmem : a ∈ s.params.addrTable) (hsp : a.space = .eep)
    (hr : a.readable = true) (id : Byte) : exec (.readEep id a) s =
      .next (s.respond (.frame (frame s.params id s.params.cmd.eepRead (readPayload a)))) :=
  exec_of_serialize_ok (serialize_eq_some.2 ⟨Bool.and_eq_true_iff.2 ⟨inSpace_of_mem hmem hsp, hr⟩, rfl⟩)

/-- The four pairings of a value's width with the register's, for either operation that answers with the serialized write: the
frame where the widths agree, else the error (R105, R106). -/
theorem write_by_width {s : State} {id cmd : Byte} {a : CatalogAddr} {run : WriteValue → Result}
    (hrun : ∀ v, run v = .next (s.respond (buildResponse s.params id (serializeWrite s.params cmd a v)))) :
    (∀ b : Byte, a.w = .one → run (.byte b) = .next (s.respond (.frame (frame s.params id cmd
      ([a.off] ++ (if s.params.writeLenField then [1] else []) ++ [b]))))) ∧
    (∀ v : Word, a.w = .two → run (.word v) = .next (s.respond (.frame (frame s.params id cmd
      ([a.off] ++ (if s.params.writeLenField then [2] else []) ++ [v.extractLsb' 0 8, v.extractLsb' 8 8]))))) ∧
    (∀ b : Byte, a.w = .two → run (.byte b) = .next (s.respond (.error .addressWidthMismatch))) ∧
    (∀ v : Word, a.w = .one → run (.word v) = .next (s.respond (.error .addressWidthMismatch))) := by
  refine ⟨fun b hw => ?_, fun v hw => ?_, fun b hw => ?_, fun v hw => ?_⟩
  · rw [hrun, serializeWrite_byte hw, buildResponse]
  · rw [hrun, serializeWrite_word hw, buildResponse]
  · rw [hrun, serializeWrite_mismatch (by simp [valueWidth, hw]), buildResponse]
  · rw [hrun, serializeWrite_mismatch (by simp [valueWidth, hw]), buildResponse]

/-- Settles O12: the address is admitted, and the write serializes by the two widths. -/
theorem writeRamResult : Obligations.WriteRamResult := by
  refine ⟨fun s id a hmem hsp hwritable => write_by_width (exec_writeRam hmem hsp hwritable id),
    fun s hs => ⟨exec_of_encode (by rw [hs]; decide), exec_of_encode (by rw [hs]; decide), ?_⟩⟩
  have hmem : ⟨.torqueControl, .ram, 0x34, .one, true, true⟩ ∈ s.params.addrTable := by rw [hs]; decide
  obtain ⟨-, -, -, hmismatch⟩ := write_by_width (exec_writeRam hmem rfl rfl 0x60)
  exact hmismatch 0x0060 rfl

/-- Settles O13: as WriteRam, on the other servo memory. -/
theorem writeEepResult : Obligations.WriteEepResult :=
  ⟨fun _ id _ hmem hsp hwritable => write_by_width (exec_writeEep hmem hsp hwritable id),
    fun _ hs => exec_of_encode (by rw [hs]; decide)⟩

/-- Settles O14: the address is admitted, and the payload is its offset and width. -/
theorem readRamResult : Obligations.ReadRamResult := by
  refine ⟨fun s id a hmem hsp hr => ⟨fun hw => ?_, fun hw => ?_⟩, fun s hs => exec_of_encode (by rw [hs]; decide)⟩
  · rw [exec_readRam hmem hsp hr, readPayload_of_width hw]; rfl
  · rw [exec_readRam hmem hsp hr, readPayload_of_width hw]; rfl

/-- Settles O15: as ReadRam, on the other servo memory. -/
theorem readEepResult : Obligations.ReadEepResult := by
  refine ⟨fun s id a hmem hsp hr => ⟨fun hw => ?_, fun hw => ?_⟩, fun s hs => exec_of_encode (by rw [hs]; decide)⟩
  · rw [exec_readEep hmem hsp hr, readPayload_of_width hw]; rfl
  · rw [exec_readEep hmem hsp hr, readPayload_of_width hw]; rfl

/-- SJog for every operand (R109). -/
theorem exec_sJog (s : State) (id pt : Byte) (mode : JogMode) (color : JogColor) (tid : Byte) :
    exec (.sJog id pt mode color tid) s = .next (s.respond (.frame (frame s.params id s.params.cmd.sJog
      (pt :: (jogBlock s.params mode color tid pt).take s.params.sjogBlockWidth)))) := exec_of_serialize_ok rfl

/-- Settles O16: one frame for every width; width 4 cuts the last byte of the sub-block. -/
theorem sJogResult : Obligations.SJogResult := by
  refine ⟨fun s id pt tid mode color => ⟨exec_sJog s id pt mode color tid, fun hlayout hmode => ?_, fun hwidth => ?_⟩,
    fun s hs => exec_of_encode (by rw [hs]; decide)⟩
  · rw [hmode, jogWord_position_default hlayout]
    decide
  · refine ⟨_, ?_, ?_, exec_sJog s id pt mode color tid⟩
    · rw [hwidth]; rfl
    · rw [frame_length, hwidth]; rfl

theorem entryBlocks_eq_flatMap (P : Params) (es : List JogEntry) : entryBlocks P es = es.flatMap (entryBlock P) := by
  induction es with
  | nil => rfl
  | cons e es ih => rw [entryBlocks, ih, List.flatMap_cons]

/-- IJog of at most `IJOG_MAX_ENTRIES` entries (R110). -/
theorem exec_iJog {s : State} {es : List JogEntry} (h : es.length ≤ s.params.ijogMaxEntries) (id : Byte) :
    exec (.iJog id es) s =
      .next (s.respond (.frame (frame s.params id s.params.cmd.iJog (es.flatMap (entryBlock s.params))))) := by
  rw [← entryBlocks_eq_flatMap]
  exact exec_of_serialize_ok (serialize_eq_some.2 ⟨decide_eq_true h, rfl⟩)

/-- IJog of more entries is no request (R13, R65). -/
theorem exec_iJog_refused {s : State} {es : List JogEntry} (h : s.params.ijogMaxEntries < es.length) (id : Byte) :
    exec (.iJog id es) s = .refused .tooManyEntries := by
  have hcheck : checkEntries s.params es = some .tooManyEntries := if_neg h.not_ge
  rw [exec, execIJog, hcheck]
  rfl

/-- Settles O17: the blocks as a `flatMap`, five bytes an entry. -/
theorem iJogResult : Obligations.IJogResult := by
  refine ⟨fun s id es h => ⟨exec_iJog h id, ?_⟩, fun s id es h => exec_iJog_refused h id, rfl,
    fun s hs => exec_of_encode (by rw [hs]; decide)⟩
  have hlen := entryBlocks_length s.params es
  rw [entryBlocks_eq_flatMap] at hlen
  rw [frame_length]
  exact congrArg (7 + ·) hlen

/-- The frame without a payload (R77, R78, R101). -/
theorem frame_nil {P : Params} (hP : P.Fixed) (id cmd : Byte) :
    frame P id cmd [] = [0xFF, 0xFF, 7, id, cmd, (7 ^^^ id ^^^ cmd) &&& P.cksumMask,
      ~~~((7 ^^^ id ^^^ cmd) &&& P.cksumMask) &&& P.cksumMask] := by
  obtain ⟨h0, h1, hfixed, -⟩ := hP
  simp [frame, sizeByte, checksum1, checksum2, xorFold, h0, h1, hfixed]

theorem exec_stat {s : State} (hP : s.params.Fixed) (id : Byte) : exec (.stat id) s = .next { s with
    out := .frame [0xFF, 0xFF, 7, id, s.params.cmd.stat, (7 ^^^ id ^^^ s.params.cmd.stat) &&& s.params.cksumMask,
      ~~~((7 ^^^ id ^^^ s.params.cmd.stat) &&& s.params.cksumMask) &&& s.params.cksumMask] } := by
  rw [← frame_nil hP]
  exact exec_of_serialize_ok rfl

theorem exec_reboot {s : State} (hP : s.params.Fixed) (id : Byte) : exec (.reboot id) s = .next { s with
    out := .frame [0xFF, 0xFF, 7, id, s.params.cmd.reboot, (7 ^^^ id ^^^ s.params.cmd.reboot) &&& s.params.cksumMask,
      ~~~((7 ^^^ id ^^^ s.params.cmd.reboot) &&& s.params.cksumMask) &&& s.params.cksumMask] } := by
  rw [← frame_nil hP]
  exact exec_of_serialize_ok rfl

/-- Settles O18: the frame without a payload. -/
theorem statResult : Obligations.StatResult :=
  ⟨fun _ id hP => exec_stat hP id,
    fun _ hs => ⟨exec_of_encode (by rw [hs]; decide), exec_of_encode (by rw [hs]; decide)⟩⟩

/-- The ids FE and FF differ in bit 0 only, which the mask `0xFE` clears (R112). -/
theorem masked_xor_FE_eq_FF (cmd : Byte) : (7 ^^^ 0xFE ^^^ cmd) &&& 0xFE = (7 ^^^ 0xFF ^^^ cmd) &&& (0xFE : Byte) := by
  rw [xor_and_mask, xor_and_mask _ cmd]
  rfl

/-- Settles O19: the frame without a payload, and bit 0 of the id outside the mask. -/
theorem rebootResult : Obligations.RebootResult := by
  refine ⟨fun s id hP => exec_reboot hP id, fun s hP hmask => ⟨_, _, exec_reboot hP 0xFE, ?_⟩,
    fun s hs => ⟨exec_of_encode (by rw [hs]; decide), exec_of_encode (by rw [hs]; decide)⟩⟩
  rw [hmask, masked_xor_FE_eq_FF, ← hmask]
  exact exec_reboot hP 0xFF

/-- Settles O20: AckPolicy is serialized as the 1-byte write to the catalog's register. -/
theorem ackPolicyResult : Obligations.AckPolicyResult := by
  refine ⟨fun s id p a ha hw => ?_, fun s hs => exec_of_encode (by rw [hs]; decide)⟩
  have hser : serialize s.params (.ackPolicy id p) = some (id, serializeAckPolicy s.params a p) :=
    serialize_eq_some.2 ⟨Option.isSome_of_eq_some ha, by rw [serializeOperands, ha]; rfl⟩
  rw [exec_of_serialize hser, serializeAckPolicy_eq_serializeWriteRam hw, serializeWriteRam, serializeWrite_byte hw]
  rfl

end Sys2Proof.Machine

/-! The decoder's queue transactions (41_decoder R144, R145, R157): POP and RESET by their one form, and DRAIN as POPs, whose
queue and last answer after any number of them have a closed form. -/

namespace Sys2Proof.Machine

/-- A decoder transaction on an unfaulted decoder is taken (R140). -/
theorem decoderTransaction_of_unfaulted {s : State} (hs : s.faulted = false) (t : State) :
    decoderTransaction s t = .next t := decoderTransaction_eq_next.2 ⟨hs, rfl⟩

/-- Settles O33: RESET answers the reset decoder with an empty output. -/
theorem resetResult : Obligations.ResetResult := exec_reset

/-- Settles O31: POP keeps the tail of the queue and answers its head. -/
theorem popResult : Obligations.PopResult := by
  intro s hs
  rw [exec_pop, decoderTransaction_of_unfaulted hs]
  exact ⟨fun hrq => by simp [State.qHead, hrq], fun p ps hrq => by simp [State.qHead, hrq]⟩

theorem runAll_cons_of_next {i : Instr} {s t : State} (h : exec i s = .next t) (is : List Instr) :
    runAll (i :: is) s = runAll is t := by
  rw [runAll, h]

/-- A run whose first transaction and whose rest both have a next state. -/
theorem runAll_cons_eq_next {i : Instr} {is : List Instr} {s u : State} :
    runAll (i :: is) s = .next u ↔ ∃ t, exec i s = .next t ∧ runAll is t = .next u := by
  cases h : exec i s with
  | next t => rw [runAll_cons_of_next h]; simp
  | fault r => simp [runAll, h]
  | refused r => simp [runAll, h]

/-- After `k + 1` POPs the first `k + 1` packets are gone and the last answer is packet `k`, or none past the end (R144). -/
theorem runAll_replicate_pop {s : State} (hs : s.faulted = false) (k : Nat) :
    runAll (List.replicate (k + 1) .pop) s = .next { s with rq := s.rq.drop (k + 1), out := .popped s.rq[k]? } := by
  induction k generalizing s with
  | zero =>
    have hpop : exec .pop s = _ := (exec_pop s).trans (decoderTransaction_of_unfaulted hs _)
    rw [List.replicate_succ, runAll_cons_of_next hpop, s.qHead_eq_getElem?, List.drop_one]
    rfl
  | succ k ih =>
    have hpop : exec .pop s = _ := (exec_pop s).trans (decoderTransaction_of_unfaulted hs _)
    rw [List.replicate_succ, runAll_cons_of_next hpop, ih (s := { s with rq := s.rq.tail, out := _ }) hs]
    simp only [List.drop_tail, List.getElem?_tail]

/-- As many POPs as there are packets leave the queue empty and change nothing else but the output (R145). -/
theorem runAll_replicate_pop_length {s : State} (hs : s.faulted = false) :
    ∃ o, runAll (List.replicate s.rq.length .pop) s = .next { s with rq := [], out := o } := by
  cases hlen : s.rq.length with
  | zero =>
    rw [← List.length_eq_zero_iff.1 hlen]
    exact ⟨s.out, rfl⟩
  | succ n => exact ⟨_, by rw [runAll_replicate_pop hs, ← hlen, List.drop_length]⟩

/-- Settles O32: DRAIN answers the queue, and the closed form of the POPs gives their end state and each answer. -/
theorem drainIsRepeatedPop : Obligations.DrainIsRepeatedPop := by
  intro s hs
  obtain ⟨o, hrun⟩ := runAll_replicate_pop_length hs
  refine ⟨s.rq, _, _, decoderTransaction_of_unfaulted hs _, rfl, rfl, rfl, hrun, rfl, rfl, fun k p hk => ?_⟩
  exact ⟨_, runAll_replicate_pop hs k, congrArg _ hk⟩

end Sys2Proof.Machine

/-! The resolve loop as R146's relation (41_decoder R141, R146 to R151): one iteration of the relation is one scan, so that the
relation reaches exactly what `State.resolve` computes, and the dropping arms are equivalences of the relation. -/

namespace Sys2Proof.Machine

/-- What R146's loop comes to from `buf` and `q`, given what its first iteration finds there. -/
def ResolvesAfter (P : Params) (buf : List Byte) (q : List AckPacket) (B : List Byte) (Q : List AckPacket) (f : Bool) :
    Scan → Prop
  | .wait => B = buf ∧ Q = q ∧ f = false
  | .badByte r => ResolvesTo P r q B Q f
  | .badSize r => ResolvesTo P r q B Q f
  | .mismatch r => ResolvesTo P r q B Q f
  | .packet p r => if P.rqDepth = some q.length then B = buf ∧ Q = q ∧ f = true else ResolvesTo P r (q ++ [p]) B Q f

/-- Every arm of the relation is what the scan finds. -/
theorem ResolvesTo.after_scan {P : Params} {buf B : List Byte} {q Q : List AckPacket} {f : Bool}
    (h : ResolvesTo P buf q B Q f) : ResolvesAfter P buf q B Q f (scan P buf) := by
  cases h with
  | idle => exact ⟨rfl, rfl, rfl⟩
  | badFirst hb h => rw [scan_badFirst _ hb]; exact h
  | seenHeader =>
    rw [(scan_wait_iff P [P.hdr0]).2 (by simp [atRest])]
    exact ⟨rfl, rfl, rfl⟩
  | badSecond hb h => rw [scan_badSecond _ hb]; exact h
  | awaitingSize =>
    rw [(scan_wait_iff P [P.hdr0, P.hdr1]).2 (by simp [atRest])]
    exact ⟨rfl, rfl, rfl⟩
  | badSize hs h => rw [scan_badSize _ hs]; exact h
  | @awaitingBody size rest _ hm hl =>
    rw [(scan_wait_iff P (P.hdr0 :: P.hdr1 :: size :: rest)).2 (by simpa [atRest, hm] using hl)]
    exact ⟨rfl, rfl, rfl⟩
  | valid hm hlen h1 h2 hroom h =>
    rw [scan_candidate _ _ _ _ _ hm hlen, if_pos ⟨h1, h2⟩]
    exact (if_neg hroom).mpr h
  | overflow hm hlen h1 h2 hfull =>
    rw [scan_candidate _ _ _ _ _ hm hlen, if_pos ⟨h1, h2⟩]
    exact (if_pos hfull).mpr ⟨rfl, rfl, rfl⟩
  | mismatch hm hlen hbad h =>
    rw [scan_candidate _ _ _ _ _ hm hlen, if_neg (by rintro ⟨rfl, hk2⟩; exact hbad ⟨rfl, hk2⟩)]
    exact h

/-- A buffer at rest is where the relation's four returning arms end (R26). -/
theorem resolvesTo_self_of_atRest {P : Params} {buf : List Byte} (h : atRest P buf = true) (q : List AckPacket) :
    ResolvesTo P buf q buf q false := by
  match buf with
  | [] => exact .idle q
  | [b0] =>
    obtain rfl : b0 = P.hdr0 := by simpa [atRest] using h
    exact .seenHeader q
  | [b0, b1] =>
    obtain ⟨rfl, rfl⟩ : b0 = P.hdr0 ∧ b1 = P.hdr1 := by simpa [atRest] using h
    exact .awaitingSize q
  | b0 :: b1 :: size :: t =>
    obtain ⟨⟨⟨rfl, rfl⟩, hm⟩, hl⟩ : ((b0 = P.hdr0 ∧ b1 = P.hdr1) ∧ P.minSize ≤ size.toNat) ∧ t.length + 3 < size.toNat := by
      simpa [atRest] using h
    exact .awaitingBody q hm hl

/-- Whatever the scan finds has its arm of the relation. A complete candidate has all seven fixed bytes because `MIN_SIZE` is 7
(R8, R62). -/
theorem resolvesTo_of_after_scan {P : Params} (hP : P.Fixed) {buf B : List Byte} {q Q : List AckPacket} {f : Bool}
    (h : ResolvesAfter P buf q B Q f (scan P buf)) : ResolvesTo P buf q B Q f := by
  rcases scan_cases P buf with ⟨hscan, hrest⟩ | ⟨b, rest, rfl, hb, hscan⟩ | ⟨b, rest, rfl, hb, hscan⟩ |
    ⟨size, rest, rfl, hs, hscan⟩ | ⟨size, tail, rfl, hm, hl, -⟩
  · rw [hscan] at h
    obtain ⟨rfl, rfl, rfl⟩ := h
    exact resolvesTo_self_of_atRest hrest _
  · rw [hscan] at h; exact .badFirst hb h
  · rw [hscan] at h; exact .badSecond hb h
  · rw [hscan] at h; exact .badSize hs h
  · obtain ⟨-, -, -, hmin, -⟩ := hP
    obtain ⟨id, cmd, k1, k2, payload, rest, rfl, hlen, -⟩ := candidate_shape (hmin ▸ hm) hl
    have hscan := scan_candidate id cmd k1 k2 rest hm hlen
    change ResolvesAfter P _ q B Q f (scan P ([P.hdr0, P.hdr1, size, id, cmd, k1, k2] ++ payload ++ rest)) at h
    rw [hscan] at h
    by_cases hk : k1 = checksum1 P.cksumMask size id cmd payload ∧ k2 = checksum2 P.cksumMask k1
    · rw [if_pos hk] at h
      by_cases hfull : P.rqDepth = some q.length
      · obtain ⟨rfl, rfl, rfl⟩ := (if_pos hfull).mp h
        exact .overflow hm hlen hk.1 hk.2 hfull
      · exact .valid hm hlen hk.1 hk.2 hfull ((if_neg hfull).mp h)
    · rw [if_neg hk] at h
      exact .mismatch hm hlen (fun hbad => hk ⟨hbad.1, hbad.1.symm ▸ hbad.2⟩) h

/-- One iteration of R146's relation is one scan. -/
theorem resolvesTo_iff_after_scan {P : Params} (hP : P.Fixed) {buf B : List Byte} {q Q : List AckPacket} {f : Bool} :
    ResolvesTo P buf q B Q f ↔ ResolvesAfter P buf q B Q f (scan P buf) :=
  ⟨ResolvesTo.after_scan, resolvesTo_of_after_scan hP⟩

/-- A dropping iteration leads the loop where the bytes it leaves lead it (R147, R148, R149, R151). -/
theorem resolvesTo_iff_of_drops {P : Params} (hP : P.Fixed) {buf r B : List Byte} {q Q : List AckPacket} {f : Bool}
    (h : (scan P buf).Drops r) : ResolvesTo P buf q B Q f ↔ ResolvesTo P r q B Q f := by
  rw [resolvesTo_iff_after_scan hP]
  rcases h with h | h | h <;> rw [h] <;> rfl

/-- The relation reaches exactly what resolve computes from an unfaulted decoder (R146). -/
theorem State.resolvesTo_iff_resolve {s : State} (hP : s.params.Fixed) (hs : s.faulted = false) (B : List Byte)
    (Q : List AckPacket) (f : Bool) :
    ResolvesTo s.params s.buf s.rq B Q f ↔ B = s.resolve.buf ∧ Q = s.resolve.rq ∧ f = s.resolve.faulted := by
  revert hP hs
  refine State.resolve_induction (motive := fun s t => s.params.Fixed → s.faulted = false →
    (ResolvesTo s.params s.buf s.rq B Q f ↔ B = t.buf ∧ Q = t.rq ∧ f = t.faulted)) ?_ ?_ ?_ ?_ s
  · intro s h hP hs
    rw [resolvesTo_iff_after_scan hP, h, hs]
    rfl
  · intro s r t h ih hP hs
    rw [resolvesTo_iff_of_drops hP h]
    exact ih hP hs
  · intro s p r t h hroom ih hP hs
    rw [← Bool.not_eq_true, State.queueFull_iff] at hroom
    rw [resolvesTo_iff_after_scan hP, h, ResolvesAfter, if_neg hroom]
    exact ih hP hs
  · intro s p r h hfull hP _
    rw [resolvesTo_iff_after_scan hP, h, ResolvesAfter, if_pos (s.queueFull_iff.1 hfull)]
    rfl

theorem exec_feedb {s : State} (b : Byte) (hs : s.faulted = false) :
    exec (.feedb b) s = .next ((s.feedByte b).respond .silent) := decoderTransaction_of_unfaulted hs _

/-- A state that differs from `s` in the decoder's storage and the output only is `s` with these written. -/
theorem State.respond_eq_update {s t : State} (hparams : t.params = s.params) (hinput : t.input = s.input) (r : Response) :
    t.respond r = { s with buf := t.buf, rq := t.rq, faulted := t.faulted, out := r } := by
  rw [← hparams, ← hinput]
  rfl

/-- Settles O26: the relation and `State.resolve` agree from the buffer with the byte appended, and resolve ends at rest or
faulted. -/
theorem feedbRunsResolveLoop : Obligations.FeedbRunsResolveLoop := by
  intro s b hP hs
  have hframe := State.respond_eq_update (s.feedByte_params b) (s.feedByte_input b) .silent
  have hends := State.resolve_ends (s.setBuf (s.buf ++ [b])) hs
  refine ⟨_, exec_feedb b hs, hframe, State.resolvesTo_iff_resolve (s := s.setBuf (s.buf ++ [b])) hP hs, fun hf => ?_,
    fun hq => State.resolve_unbounded (s.setBuf (s.buf ++ [b])) hs hq⟩
  rcases hends with ⟨-, hrest⟩ | ⟨hfault, -⟩
  · exact hrest
  · exact absurd (hfault.symm.trans hf) Bool.noConfusion

end Sys2Proof.Machine

/-! FEED as its FEEDBs (41_decoder R142), and what a FEED to an idle decoder comes to: noise without `0xFF`, a header and its
size byte, whole frames, and frames among noise (R147 to R149, R153, R159). -/

namespace Sys2Proof.Machine

/-- A faulted decoder takes no FEEDB (R140). -/
theorem runAll_feedb_of_faulted {s u : State} {bs : List Byte} (hs : s.faulted = true)
    (h : runAll (bs.map Instr.feedb) s = .next u) : bs = [] ∧ u = s := by
  cases bs with
  | nil => cases h; exact ⟨rfl, rfl⟩
  | cons b bs =>
    obtain ⟨t, hexec, -⟩ := runAll_cons_eq_next.1 h
    rw [(decoderTransaction_eq_next.1 hexec).1] at hs
    cases hs

theorem State.feedBytes_cons_of_faulted {s : State} {b : Byte} (h : (s.feedByte b).faulted = true) (bs : List Byte) :
    s.feedBytes (b :: bs) = s.feedByte b := by
  simp only [State.feedBytes, h, if_true]

theorem State.feedBytes_cons_of_unfaulted {s : State} {b : Byte} (h : (s.feedByte b).faulted = false) (bs : List Byte) :
    s.feedBytes (b :: bs) = (s.feedByte b).feedBytes bs := by
  simp only [State.feedBytes, h, Bool.false_eq_true, if_false]

/-- FEEDBs that all have a step end where the FEED of their bytes ends, but for the output port (R142). -/
theorem State.feedBytes_eq_of_runAll_feedb {s u : State} {bs : List Byte} (hs : s.faulted = false)
    (h : runAll (bs.map Instr.feedb) s = .next u) : (s.feedBytes bs).respond .silent = u.respond .silent := by
  induction bs generalizing s with
  | nil => cases h; rfl
  | cons b bs ih =>
    rw [List.map_cons, runAll_cons_of_next (exec_feedb b hs)] at h
    cases hf : (s.feedByte b).faulted with
    | true =>
      obtain ⟨rfl, rfl⟩ := runAll_feedb_of_faulted (s := (s.feedByte b).respond .silent) hf h
      rw [State.feedBytes_cons_of_faulted hf]
      rfl
    | false =>
      have hrest := ih (s := (s.feedByte b).respond .silent) hf h
      rw [State.feedBytes_respond] at hrest
      rw [State.feedBytes_cons_of_unfaulted hf]
      exact hrest

/-- Settles O28: by induction over the bytes, where a fault can only come with the last. -/
theorem feedIsFeedbSequence : Obligations.FeedIsFeedbSequence :=
  ⟨fun _ _ bs hs h => (exec_feed bs hs).trans (congrArg _ (State.feedBytes_eq_of_runAll_feedb hs h)),
    fun _ hs => exec_feed [] hs⟩

/-- An idle decoder drops a byte that is not `HDR0` (R147). -/
theorem State.feedByte_noise {s : State} {b : Byte} (hbuf : s.buf = []) (hb : b ≠ s.params.hdr0) : s.feedByte b = s := by
  have hself : s.setBuf [] = s := by rw [← hbuf]; rfl
  rw [State.feedByte, hbuf]
  refine (State.resolve_drops (s := s.setBuf [b]) (.inl (scan_badFirst [] hb))).trans ?_
  rw [State.setBuf_setBuf, State.resolve_wait rfl, hself]

/-- An idle decoder drops bytes none of which is `HDR0` (R147). -/
theorem State.feedBytes_noise {s : State} {noise : List Byte} (hs : s.faulted = false) (hbuf : s.buf = [])
    (h : ∀ b ∈ noise, b ≠ s.params.hdr0) : s.feedBytes noise = s := by
  induction noise with
  | nil => rfl
  | cons b bs ih =>
    rw [List.forall_mem_cons] at h
    have hdrop : s.feedByte b = s := State.feedByte_noise hbuf h.1
    rw [State.feedBytes_cons_of_unfaulted (by rwa [hdrop]), hdrop]
    exact ih h.2

/-- In the loop, a front byte that is not `0xFF` is dropped (R147). -/
theorem resolvesTo_badFirst_iff {P : Params} (hP : P.Fixed) {b : Byte} {rest B : List Byte} {q Q : List AckPacket} {f : Bool}
    (hb : b ≠ 0xFF) : ResolvesTo P (b :: rest) q B Q f ↔ ResolvesTo P rest q B Q f :=
  resolvesTo_iff_of_drops hP (.inl (scan_badFirst rest (hP.1.symm ▸ hb)))

/-- In the loop, `0xFF` before another byte is dropped alone (R148). -/
theorem resolvesTo_badSecond_iff {P : Params} (hP : P.Fixed) {b : Byte} {rest B : List Byte} {q Q : List AckPacket} {f : Bool}
    (hb : b ≠ 0xFF) : ResolvesTo P (0xFF :: b :: rest) q B Q f ↔ ResolvesTo P (b :: rest) q B Q f :=
  resolvesTo_iff_of_drops hP (.inl (hP.1 ▸ scan_badSecond rest (hP.2.1.symm ▸ hb)))

/-- A header with a size byte below 7 is found as such (R149). -/
theorem scan_badSize_of_fixed {P : Params} (hP : P.Fixed) {size : Byte} (rest : List Byte) (h : size.toNat < 7) :
    scan P (0xFF :: 0xFF :: size :: rest) = .badSize rest := by
  obtain ⟨h0, h1, -, hmin, -⟩ := hP
  have hscan := scan_badSize (P := P) rest (hmin.symm ▸ h)
  rwa [h0, h1] at hscan

/-- Settles O37: noise on an idle decoder by `State.feedBytes_noise`, in the loop by the dropping arm of R147. -/
theorem noiseIsDropped : Obligations.NoiseIsDropped := by
  refine ⟨fun s noise hP hs hbuf h => ?_, fun P b rest B q Q f hP hb => resolvesTo_badFirst_iff hP hb⟩
  rw [exec_feed noise hs, State.feedBytes_noise hs hbuf (hP.1.symm ▸ h)]
  rfl

/-- A FEED to an idle decoder of bytes at rest is held (R146). -/
theorem exec_feed_of_atRest {s : State} {bs : List Byte} (hs : s.faulted = false) (hbuf : s.buf = [])
    (h : atRest s.params bs = true) : exec (.feed bs) s = .next { s with buf := bs, out := .silent } := by
  rw [exec_feed bs hs, State.feedBytes_of_atRest hs (by rwa [hbuf]), hbuf]
  rfl

/-- Two bytes `0xFF` and a size byte with bytes still missing are at rest (R26). -/
theorem atRest_candidate {P : Params} (hP : P.Fixed) {size : Byte} {tail : List Byte} (hsize : 7 ≤ size.toNat)
    (hlen : tail.length + 3 < size.toNat) : atRest P (0xFF :: 0xFF :: size :: tail) = true := by
  obtain ⟨h0, h1, -, hmin, -⟩ := hP
  simp [atRest, h0, h1, hmin, hsize, hlen]

/-- Settles O38: the slide is the dropping arm of R148, and a run of `0xFF` is at rest up to three bytes. -/
theorem headerMatchSlides : Obligations.HeaderMatchSlides := by
  refine ⟨fun P b rest B q Q f hP hb => resolvesTo_badSecond_iff hP hb, fun s hP hs hbuf => ?_⟩
  have hthree : atRest s.params [0xFF, 0xFF, 0xFF] = true := atRest_candidate hP (by decide) (by decide)
  have htwo : atRest s.params [0xFF, 0xFF] = true := atRest_of_append (b := [0xFF]) hthree
  refine ⟨exec_feed_of_atRest hs hbuf htwo, exec_feed_of_atRest hs hbuf hthree, ?_⟩
  rw [subState, (scan_wait_iff _ _).2 hthree]
  rfl

/-- Settles O39: three bytes dropped by the arm of R149; or `0xFF` by R148 and then the size byte by R147. -/
theorem badSizeIsDropped : Obligations.BadSizeIsDropped := by
  refine ⟨fun s b hP hs hbuf hb => ?_, fun P size rest B q Q f hP hsize => ⟨?_, ?_⟩⟩
  · have hfeed : s.feedByte b = s.setBuf [] := by
      rw [State.feedByte, hbuf]
      exact (State.resolve_drops (s := s.setBuf [0xFF, 0xFF, b]) (.inr (.inl (scan_badSize_of_fixed hP [] hb)))).trans
        (State.resolve_wait rfl)
    rw [exec_feedb b hs, hfeed]
    rfl
  · exact resolvesTo_iff_of_drops hP (.inr (.inl (scan_badSize_of_fixed hP rest hsize)))
  · have hne : size ≠ 0xFF := by rintro rfl; exact absurd hsize (by decide)
    exact (resolvesTo_badSecond_iff hP hne).trans (resolvesTo_badFirst_iff hP hne)

/-- Settles O41: the whole frame is one packet, and the decoder has room for it. -/
theorem everyIdAndCommandAccepted : Obligations.EveryIdAndCommandAccepted := by
  intro s id cmd payload hP hs hbuf hroom hlen
  have hfull : s.queueFull = false := by rwa [← Bool.not_eq_true, State.queueFull_iff]
  rw [exec_feed _ hs, State.feedBytes_frame_eq_enqueue hP id cmd hlen hs hbuf hfull]
  rfl

/-- Where its first part does not fault, a FEED goes on with its second part (R142). -/
theorem State.feedBytes_append_of_unfaulted {s : State} {a : List Byte} (hs : s.faulted = false)
    (h : (s.feedBytes a).faulted = false) (b : List Byte) : s.feedBytes (a ++ b) = (s.feedBytes a).feedBytes b := by
  rw [State.feedBytes_append _ _ _ hs, h, if_neg Bool.false_ne_true]

/-- An idle decoder with room delivers a frame behind noise without `0xFF` (R159). -/
theorem State.feedBytes_noise_frame {s : State} {noise : List Byte} {v : AckPacket} (hP : s.params.Fixed)
    (hs : s.faulted = false) (hbuf : s.buf = []) (hroom : s.queueFull = false) (hnoise : ∀ b ∈ noise, b ≠ 0xFF)
    (hlen : v.payload.length ≤ maxPayload) :
    s.feedBytes (noise ++ frame s.params v.id v.cmd v.payload) = s.enqueue v := by
  have hdrop : s.feedBytes noise = s := State.feedBytes_noise hs hbuf (hP.1.symm ▸ hnoise)
  rw [State.feedBytes_append_of_unfaulted hs (by rwa [hdrop]), hdrop]
  exact State.feedBytes_frame_eq_enqueue hP v.id v.cmd hlen hs hbuf hroom

/-- A `0xFF` before a frame makes its header byte the size 255, which the frame does not reach (R159). -/
theorem atRest_cons_frame {P : Params} (hP : P.Fixed) (id cmd : Byte) {payload : List Byte} (hlen : payload.length < 247) :
    atRest P (0xFF :: frame P id cmd payload) = true := by
  rw [frame, hP.1, hP.2.1]
  refine atRest_candidate hP (by decide) ?_
  change payload.length + 5 + 3 < 255
  omega

/-- Settles O42: each frame is delivered behind its noise, one FEED after the other; the held frame is at rest. -/
theorem resynchronisation : Obligations.Resynchronisation := by
  refine ⟨fun s n1 n2 n3 v1 v2 hP hs hbuf hq h1 h2 h3 hv1 hv2 => ?_, fun s id cmd payload hP hs hbuf hlen => ?_⟩
  · have hfirst : s.feedBytes ([n1, n2] ++ frame s.params v1.id v1.cmd v1.payload) = s.enqueue v1 :=
      State.feedBytes_noise_frame hP hs hbuf (State.queueFull_of_unbounded hq) (by simpa using ⟨h1, h2⟩) hv1
    have hsecond : (s.enqueue v1).feedBytes ([n3] ++ frame s.params v2.id v2.cmd v2.payload) = (s.enqueue v1).enqueue v2 :=
      State.feedBytes_noise_frame (s := s.enqueue v1) hP hs hbuf (State.queueFull_of_unbounded hq) (by simpa using h3) hv2
    rw [exec_feed _ hs, List.append_assoc _ [n3], State.feedBytes_append_of_unfaulted hs (by rwa [hfirst]), hfirst, hsecond]
    simp [State.enqueue, State.respond]
  · exact exec_feed_of_atRest hs hbuf (atRest_cons_frame hP id cmd hlen)

end Sys2Proof.Machine

/-! The one build error and what is refused (60_exceptions R181, R182): the error is the width mismatch of a catalog write and
nothing else, and `encode` and exec say the same of every request. -/

namespace Sys2Proof.Machine

open Sys2Proof.Laws.PayloadBound

/-- A `WriteRam` or `WriteEep` whose value width is not the address's (R181). -/
def MismatchedWrite (i : Instr) : Prop :=
  ∃ id a v, (i = .writeRam id a v ∨ i = .writeEep id a v) ∧ valueWidth v ≠ a.w

theorem serializeWrite_eq_error_iff {P : Params} {cmd : Byte} {a : CatalogAddr} {v : WriteValue} {e : BuildError} :
    serializeWrite P cmd a v = .error e ↔ valueWidth v ≠ a.w := by
  cases e
  unfold serializeWrite
  split <;> simp_all

/-- Only a mismatched write is serialized to an error: every other operation is serialized to a payload (R181). -/
theorem mismatchedWrite_of_serialize_error {P : Params} {i : Instr} {id : Byte} {e : BuildError}
    (h : serialize P i = some (id, .error e)) : MismatchedWrite i := by
  obtain ⟨-, hops⟩ := serialize_eq_some.1 h
  cases i with
  | writeRam id' a v => exact ⟨id', a, v, .inl rfl, serializeWrite_eq_error_iff.1 (Prod.mk.inj (Option.some.inj hops)).2⟩
  | writeEep id' a v => exact ⟨id', a, v, .inr rfl, serializeWrite_eq_error_iff.1 (Prod.mk.inj (Option.some.inj hops)).2⟩
  | ackPolicy id' p =>
    obtain ⟨a, -, ha⟩ := Option.map_eq_some_iff.1 hops
    cases ha
  | _ => cases hops

/-- A mismatched write that the interface carries is serialized to the error (R105, R106). -/
theorem serialize_mismatchedWrite {P : Params} {i : Instr} (hw : i.wf P = true) (h : MismatchedWrite i) :
    ∃ id, serialize P i = some (id, .error .addressWidthMismatch) := by
  obtain ⟨id, a, v, rfl | rfl, hwidth⟩ := h
  · exact ⟨id, serialize_eq_some.2 ⟨hw, congrArg (fun op => some (id, op)) (serializeWrite_mismatch hwidth _)⟩⟩
  · exact ⟨id, serialize_eq_some.2 ⟨hw, congrArg (fun op => some (id, op)) (serializeWrite_mismatch hwidth _)⟩⟩

/-- What a port transaction answers: nothing, a popped packet or the drained queue (R140, R144, R145). -/
theorem out_of_port {i : Instr} {s t : State} (hi : i.isRequest = false) (h : exec i s = .next t) :
    t.out = .silent ∨ (∃ p, t.out = .popped p) ∨ ∃ ps, t.out = .drained ps := by
  cases i with
  | feedb b => obtain ⟨-, rfl⟩ := decoderTransaction_eq_next.1 h; exact .inl rfl
  | feed bs => obtain ⟨-, rfl⟩ := decoderTransaction_eq_next.1 h; exact .inl rfl
  | pop => rw [exec_pop] at h; obtain ⟨-, rfl⟩ := decoderTransaction_eq_next.1 h; exact .inr (.inl ⟨_, rfl⟩)
  | drain => obtain ⟨-, rfl⟩ := decoderTransaction_eq_next.1 h; exact .inr (.inr ⟨_, rfl⟩)
  | reset => cases h; exact .inl rfl
  | _ => cases hi

/-- Every error answered is what the request serializes to (R102). -/
theorem serialize_of_exec_error {i : Instr} {s t : State} {e : BuildError} (h : exec i s = .next t) (he : t.out = .error e) :
    ∃ id, serialize s.params i = some (id, .error e) := by
  cases hi : i.isRequest with
  | false => rcases out_of_port hi h with ho | ⟨p, ho⟩ | ⟨ps, ho⟩ <;> cases ho.symm.trans he
  | true =>
    obtain ⟨id, op, hser, hexec⟩ := exec_request hi (wf_of_exec_eq_next h)
    obtain rfl : t = s.respond (buildResponse s.params id op) := by simpa [h] using hexec
    cases op with
    | error e' => cases he; exact ⟨id, hser⟩
    | ok x => cases he

/-- Settles O24: an error answered is an error serialized, which only a mismatched write is. -/
theorem widthMismatchExactly : Obligations.WidthMismatchExactly := by
  refine fun i s t h => ⟨⟨fun ⟨e, he⟩ => ?_, fun hi => ?_⟩, fun e he => ?_⟩
  · obtain ⟨id, hser⟩ := serialize_of_exec_error h he
    exact mismatchedWrite_of_serialize_error hser
  · obtain ⟨id, hser⟩ := serialize_mismatchedWrite (wf_of_exec_eq_next h) hi
    obtain rfl : t = s.respond _ := Host.Outcome.next.inj (h.symm.trans (exec_of_serialize hser))
    exact ⟨_, rfl⟩
  · obtain ⟨id, hser⟩ := serialize_of_exec_error h he
    cases e
    exact ⟨rfl, Host.Outcome.next.inj (h.symm.trans (exec_of_serialize hser))⟩

theorem encode_of_serialize_ok {P : Params} {i : Instr} {id cmd : Byte} {payload : List Byte}
    (h : serialize P i = some (id, .ok (cmd, payload))) : encode P i = some (frame P id cmd payload) := by
  rw [encode, h]

theorem encode_of_serialize_error {P : Params} {i : Instr} {id : Byte} {e : BuildError}
    (h : serialize P i = some (id, .error e)) : encode P i = none := by
  rw [encode, h]

theorem serialize_of_not_wf {P : Params} {i : Instr} (h : i.wf P = false) : serialize P i = none := by
  rw [serialize, h, if_neg Bool.false_ne_true]

theorem encode_of_not_wf {P : Params} {i : Instr} (h : i.wf P = false) : encode P i = none := by
  rw [encode, serialize_of_not_wf h]

/-- What the interface cannot carry is refused (R13, R182). -/
theorem exec_refused_of_not_wf {i : Instr} {s : State} (h : i.wf s.params = false) : ∃ r, exec i s = .refused r := by
  cases i with
  | writeRam id a v => exact (encoderTransaction_outcome_iff checkWrite_eq_none id _ s).2.2 (Bool.eq_false_iff.1 h)
  | writeEep id a v => exact (encoderTransaction_outcome_iff checkWrite_eq_none id _ s).2.2 (Bool.eq_false_iff.1 h)
  | readRam id a => exact (encoderTransaction_outcome_iff checkRead_eq_none id _ s).2.2 (Bool.eq_false_iff.1 h)
  | readEep id a => exact (encoderTransaction_outcome_iff checkRead_eq_none id _ s).2.2 (Bool.eq_false_iff.1 h)
  | iJog id es => exact (encoderTransaction_outcome_iff checkEntries_eq_none id _ s).2.2 (of_decide_eq_false h)
  | ackPolicy id p =>
    have hnone : s.params.ackPolicyRam = none := Option.not_isSome_iff_eq_none.1 (Bool.eq_false_iff.1 h)
    exact ⟨.noAckPolicyRegister, by simp only [exec, execAckPolicy, hnone]⟩
  | _ => cases h

/-- A frame is encoded exactly when exec answers it (R102). -/
theorem encode_eq_some_iff_exec {i : Instr} {s : State} {f : List Byte} :
    encode s.params i = some f ↔ exec i s = .next (s.respond (.frame f)) := by
  refine ⟨exec_of_encode, fun h => ?_⟩
  obtain ⟨id, cmd, payload, hser, rfl⟩ := serialize_of_exec_frame h rfl
  exact encode_of_serialize_ok hser

/-- A request that the interface carries is not encoded exactly when exec answers it with the error (R102). -/
theorem encode_eq_none_iff_exec_error {i : Instr} {s : State} (hi : i.isRequest = true) (hw : i.wf s.params = true) :
    encode s.params i = none ↔ exec i s = .next (s.respond (.error .addressWidthMismatch)) := by
  obtain ⟨id, op, hser, hexec⟩ := exec_request hi hw
  cases op with
  | ok x => simp [encode_of_serialize_ok hser, hexec, buildResponse, State.respond]
  | error e => cases e; exact ⟨fun _ => hexec, fun _ => encode_of_serialize_error hser⟩

/-- Settles O60: by whether the interface carries the request. -/
theorem encodeIsWhatExecAnswers : Obligations.EncodeIsWhatExecAnswers := by
  refine fun i s => ⟨fun f => encode_eq_some_iff_exec, fun hi => ?_, fun h => ⟨serialize_of_not_wf h, encode_of_not_wf h⟩⟩
  cases hw : i.wf s.params with
  | false => exact iff_of_true (encode_of_not_wf hw) (.inl ⟨rfl, exec_refused_of_not_wf hw⟩)
  | true => exact (encode_eq_none_iff_exec_error hi hw).trans (by simp [State.respond])

end Sys2Proof.Machine

/-! What a transaction can do (00_scope R13, 41_decoder R140): one inversion lemma over all transactions, from which follow what
no transaction writes and which transaction may clear, take or drop something (10_state R31, 70_reset_and_hazards R201). -/

namespace Sys2Proof.Machine

/-- The next states of a transaction: an encoder request writes the output port only, RESET clears the decoder, and every other
decoder transaction needs an unfaulted decoder. -/
inductive Effect (s : State) : Instr → State → Prop
  | request {i : Instr} (o : Response) : i.isRequest = true → Effect s i (s.respond o)
  | feedb (b : Byte) : s.faulted = false → Effect s (.feedb b) ((s.feedByte b).respond .silent)
  | feed (bs : List Byte) : s.faulted = false → Effect s (.feed bs) ((s.feedBytes bs).respond .silent)
  | pop : s.faulted = false → Effect s .pop { s with rq := s.rq.tail, out := .popped s.qHead }
  | drain : s.faulted = false → Effect s .drain { s with rq := [], out := .drained s.rq }
  | reset : Effect s .reset (s.resetDecoder.respond .silent)

/-- Every next state is one of the transaction's effects. -/
theorem effect_of_exec {i : Instr} {s t : State} (h : exec i s = .next t) : Effect s i t := by
  cases hi : i.isRequest with
  | true =>
    obtain ⟨id, op, -, hexec⟩ := exec_request hi (wf_of_exec_eq_next h)
    obtain rfl : s.respond _ = t := Host.Outcome.next.inj (hexec.symm.trans h)
    exact .request _ hi
  | false =>
    cases i with
    | feedb b => obtain ⟨hs, rfl⟩ := decoderTransaction_eq_next.1 h; exact .feedb b hs
    | feed bs => obtain ⟨hs, rfl⟩ := decoderTransaction_eq_next.1 h; exact .feed bs hs
    | pop => rw [exec_pop] at h; obtain ⟨hs, rfl⟩ := decoderTransaction_eq_next.1 h; exact .pop hs
    | drain => obtain ⟨hs, rfl⟩ := decoderTransaction_eq_next.1 h; exact .drain hs
    | reset => cases h; exact .reset
    | _ => cases hi

/-- No transaction writes the parameters or the transactions still presented (R31). -/
theorem Effect.params_input {i : Instr} {s t : State} (h : Effect s i t) : t.params = s.params ∧ t.input = s.input := by
  cases h with
  | feedb b => exact ⟨s.feedByte_params b, s.feedByte_input b⟩
  | feed bs =>
    obtain ⟨hparams, hinput, -, -⟩ := s.feedBytes_frame bs
    exact ⟨hparams, hinput⟩
  | _ => exact ⟨rfl, rfl⟩

/-- What a step can do: idle, or run the oldest presented transaction (R6). -/
theorem step_cases {s t : State} (h : step s = .next t) :
    (s.input = [] ∧ t = s) ∨ ∃ i rest, s.input = i :: rest ∧ exec i { s with input := rest } = .next t := by
  cases hinput : s.input with
  | nil =>
    rw [step, hinput] at h
    exact .inl ⟨rfl, (Host.Outcome.next.inj h).symm⟩
  | cons i rest =>
    rw [step, hinput] at h
    exact .inr ⟨i, rest, rfl, h⟩

/-- Settles O3: by the inversion lemma; a step runs its transaction on the state with the tail of the input. -/
theorem parametersNeverChange : Obligations.ParametersNeverChange := by
  refine ⟨fun i s t h => (effect_of_exec h).params_input, fun s t h => ?_⟩
  rcases step_cases h with ⟨hinput, rfl⟩ | ⟨i, rest, hinput, hexec⟩
  · exact ⟨rfl, by rw [hinput]; rfl⟩
  · rw [hinput]
    exact (effect_of_exec hexec).params_input

/-- Settles O1: each part is the definition of a step. -/
theorem stepRunsPresentedTransaction : Obligations.StepRunsPresentedTransaction := by
  refine ⟨fun s i rest h => ?_, fun s h => ?_, fun s nbits w i h => ?_⟩
  · rw [step, h]
  · rw [step, h]
  · rw [State.withFetchWord, h]
    rfl

/-- Settles O53: effect by effect. -/
theorem noImplicitReset : Obligations.NoImplicitReset := by
  intro i s t h hreset
  have heffect := effect_of_exec h
  cases heffect with
  | request o hi => exact ⟨id, fun _ _ => List.prefix_rfl, fun _ _ => ⟨rfl, rfl⟩, by rintro rfl; cases hi⟩
  | feedb b hs =>
    exact ⟨fun hf => absurd (hs.symm.trans hf) Bool.noConfusion, fun _ _ => s.feedByte_rq b,
      fun hne _ => absurd rfl (hne b), fun hi => by cases hi⟩
  | feed bs hs =>
    obtain ⟨-, -, -, hrq⟩ := s.feedBytes_frame bs
    exact ⟨fun hf => absurd (hs.symm.trans hf) Bool.noConfusion, fun _ _ => hrq,
      fun _ hne => absurd rfl (hne bs), fun hi => by cases hi⟩
  | pop => exact ⟨id, fun hne => absurd rfl hne, fun _ _ => ⟨rfl, rfl⟩, fun _ => rfl⟩
  | drain => exact ⟨id, fun _ hne => absurd rfl hne, fun _ _ => ⟨rfl, rfl⟩, fun hi => by cases hi⟩
  | reset => exact absurd rfl hreset

end Sys2Proof.Machine

/-! The three outcomes of a transaction (00_scope R13): a request is answered or refused, a decoder transaction is answered or
finds the decoder stuck (41_decoder R140, 60_exceptions R186, R189). -/

namespace Sys2Proof.Machine

/-- A decoder transaction other than RESET is taken only on an unfaulted decoder (R140, R189). -/
theorem exec_decoder {i : Instr} (hi : i.isRequest = false) (hreset : i ≠ .reset) (s : State) :
    ∃ t, exec i s = decoderTransaction s t := by
  cases i with
  | feedb b => exact ⟨_, rfl⟩
  | feed bs => exact ⟨_, rfl⟩
  | pop => exact ⟨_, rfl⟩
  | drain => exact ⟨_, rfl⟩
  | reset => exact absurd rfl hreset
  | _ => cases hi

theorem decoderTransaction_of_faulted {s : State} (hs : s.faulted = true) (t : State) :
    decoderTransaction s t = .fault .queueOverflow := by
  rw [decoderTransaction, hs, if_pos rfl]

/-- The interface carries every decoder transaction (R13). -/
theorem wf_of_port {i : Instr} (hi : i.isRequest = false) (P : Params) : i.wf P = true := by
  cases i with
  | feedb b => rfl
  | feed bs => rfl
  | pop => rfl
  | drain => rfl
  | reset => rfl
  | _ => cases hi

theorem decoderTransaction_ne_refused (s t : State) (r : Refusal) : decoderTransaction s t ≠ .refused r := by
  cases hs : s.faulted with
  | true => rw [decoderTransaction_of_faulted hs]; nofun
  | false => rw [decoderTransaction_of_unfaulted hs]; nofun

/-- What the interface carries is not refused (R13). -/
theorem exec_ne_refused_of_wf {i : Instr} {s : State} (hw : i.wf s.params = true) (r : Refusal) :
    exec i s ≠ .refused r := by
  cases hi : i.isRequest with
  | true =>
    obtain ⟨id, op, -, hexec⟩ := exec_request hi hw
    rw [hexec]
    nofun
  | false =>
    by_cases hreset : i = .reset
    · rw [hreset, exec_reset]
      nofun
    · obtain ⟨t, hexec⟩ := exec_decoder hi hreset s
      rw [hexec]
      exact decoderTransaction_ne_refused s t r

/-- No request finds the machine stopped (R2, R191). -/
theorem exec_ne_fault_of_request {i : Instr} {s : State} (hi : i.isRequest = true) (r : Fault) : exec i s ≠ .fault r := by
  cases hw : i.wf s.params with
  | true =>
    obtain ⟨id, op, -, hexec⟩ := exec_request hi hw
    rw [hexec]
    nofun
  | false =>
    obtain ⟨r', hexec⟩ := exec_refused_of_not_wf hw
    rw [hexec]
    nofun

/-- Settles O34: the four transactions have the one form of a decoder transaction. -/
theorem faultedDecoderIsStuck : Obligations.FaultedDecoderIsStuck := fun s hs =>
  ⟨fun _ => decoderTransaction_of_faulted hs _, fun _ => decoderTransaction_of_faulted hs _,
    decoderTransaction_of_faulted hs _, decoderTransaction_of_faulted hs _, _, exec_reset s, rfl⟩

/-- Settles O35: neither a request nor RESET faults, and any other transaction does exactly on a faulted decoder. -/
theorem faultsExactlyWhenStuck : Obligations.FaultsExactlyWhenStuck := by
  refine fun i s => ⟨fun ⟨r, h⟩ => ?_, fun ⟨hs, hi, hreset⟩ => ?_⟩
  · have hi : i.isRequest = false := Bool.eq_false_iff.2 fun hi => exec_ne_fault_of_request hi r h
    have hreset : i ≠ .reset := by rintro rfl; cases h
    obtain ⟨t, hexec⟩ := exec_decoder hi hreset s
    refine ⟨?_, hi, hreset⟩
    by_contra hs
    rw [hexec, decoderTransaction_of_unfaulted (Bool.eq_false_iff.2 hs)] at h
    cases h
  · obtain ⟨t, hexec⟩ := exec_decoder hi hreset s
    exact ⟨_, hexec.trans (decoderTransaction_of_faulted hs t)⟩

/-- Settles O23: refusal by `exec_refused_of_not_wf` and `exec_ne_refused_of_wf`, the answer by what the request serializes
to. -/
theorem refusedExactlyIllFormed : Obligations.RefusedExactlyIllFormed := by
  refine ⟨fun i s => ⟨fun ⟨r, h⟩ => ?_, exec_refused_of_not_wf⟩, fun i s hi hw => ?_⟩
  · exact Bool.eq_false_iff.2 fun hw => exec_ne_refused_of_wf hw r h
  · obtain ⟨id, op, -, hexec⟩ := exec_request hi hw
    cases op with
    | ok x => exact .inl ⟨_, hexec⟩
    | error e => cases e; exact .inr hexec

/-- Settles O25: what a request serializes to depends on the parameters only. -/
theorem encoderIsStateless : Obligations.EncoderIsStateless := by
  intro i s s' t hi hparams h
  obtain ⟨id, op, hser, hexec⟩ := exec_request hi (wf_of_exec_eq_next h)
  obtain rfl : s.respond _ = t := Host.Outcome.next.inj (hexec.symm.trans h)
  refine ⟨rfl, ?_⟩
  rw [← hparams] at hser ⊢
  exact exec_of_serialize hser

end Sys2Proof.Machine

/-! The decoder at rest (10_state R24 to R26): the four shapes of the buffer, its length, and the sub-state as a function of
it. -/

namespace Sys2Proof.Machine

/-- The shapes of a buffer at rest (R24, R26). -/
theorem atRest_cases {P : Params} {buf : List Byte} (h : atRest P buf = true) :
    buf = [] ∨ buf = [P.hdr0] ∨ buf = [P.hdr0, P.hdr1] ∨
    ∃ size tail, buf = P.hdr0 :: P.hdr1 :: size :: tail ∧ P.minSize ≤ size.toNat ∧ tail.length + 3 < size.toNat := by
  match buf with
  | [] => exact .inl rfl
  | [b0] =>
    obtain rfl : b0 = P.hdr0 := by simpa [atRest] using h
    exact .inr (.inl rfl)
  | [b0, b1] =>
    obtain ⟨rfl, rfl⟩ : b0 = P.hdr0 ∧ b1 = P.hdr1 := by simpa [atRest] using h
    exact .inr (.inr (.inl rfl))
  | b0 :: b1 :: size :: tail =>
    obtain ⟨⟨⟨rfl, rfl⟩, hmin⟩, hlen⟩ :
        ((b0 = P.hdr0 ∧ b1 = P.hdr1) ∧ P.minSize ≤ size.toNat) ∧ tail.length + 3 < size.toNat := by
      simpa [atRest] using h
    exact .inr (.inr (.inr ⟨size, tail, rfl, hmin, hlen⟩))

/-- A buffer at rest is shorter than some size byte declares (R152). -/
theorem length_le_of_atRest {P : Params} {buf : List Byte} (h : atRest P buf = true) : buf.length ≤ 254 := by
  rcases atRest_cases h with rfl | rfl | rfl | ⟨size, tail, rfl, -, hlen⟩
  · exact Nat.zero_le _
  · exact Nat.le_of_ble_eq_true rfl
  · exact Nat.le_of_ble_eq_true rfl
  · have hsize := size.isLt
    simp only [List.length_cons]
    omega

/-- The sub-state of an incomplete candidate (R24). -/
theorem subState_candidate {P : Params} {b0 b1 size : Byte} {tail : List Byte}
    (h : atRest P (b0 :: b1 :: size :: tail) = true) :
    subState P (b0 :: b1 :: size :: tail) = .awaitingBody (size.toNat - (tail.length + 3)) := by
  rw [subState, (scan_wait_iff _ _).2 h]

/-- Settles O47: the sub-state of each shape of the buffer. -/
theorem subStateAtRest : Obligations.SubStateAtRest := by
  intro P buf hP h
  have hscan := (scan_wait_iff P buf).2 h
  obtain ⟨h0, h1, -, hmin, -⟩ := hP
  rcases atRest_cases h with rfl | rfl | rfl | ⟨size, tail, rfl, hsize, hlen⟩
  · exact .inl ⟨rfl, rfl⟩
  · exact .inr (.inl ⟨by rw [h0], by rw [subState, hscan]⟩)
  · exact .inr (.inr (.inl ⟨by rw [h0, h1], by rw [subState, hscan]⟩))
  · have hlt := size.isLt
    have hbuf : (P.hdr0 :: P.hdr1 :: size :: tail).length = tail.length + 3 := rfl
    rw [hbuf]
    exact .inr (.inr (.inr ⟨size, tail, by rw [h0, h1], hlen, subState_candidate h, by omega, by omega⟩))

/-- At rest the sub-state is neither that of a dropping iteration nor that of a complete candidate (R25). -/
theorem subState_of_atRest {P : Params} {buf : List Byte} (h : atRest P buf = true) :
    subState P buf ≠ .invalidSkip ∧ subState P buf ≠ .awaitingBody 0 := by
  have hscan := (scan_wait_iff P buf).2 h
  rcases atRest_cases h with rfl | rfl | rfl | ⟨size, tail, rfl, -, hlen⟩
  · exact ⟨SubState.noConfusion, SubState.noConfusion⟩
  · rw [subState, hscan]; exact ⟨SubState.noConfusion, SubState.noConfusion⟩
  · rw [subState, hscan]; exact ⟨SubState.noConfusion, SubState.noConfusion⟩
  · rw [subState_candidate h, ne_eq, ne_eq, SubState.awaitingBody.injEq]
    exact ⟨SubState.noConfusion, by omega⟩

/-- A FEEDB that does not fault ends at rest (R26). -/
theorem State.atRest_feedByte {s : State} {b : Byte} (hs : s.faulted = false) (h : (s.feedByte b).faulted = false) :
    atRest s.params (s.feedByte b).buf = true := by
  rcases State.resolve_ends (s.setBuf (s.buf ++ [b])) hs with ⟨-, hrest⟩ | ⟨hfault, -⟩
  · exact hrest
  · exact absurd (hfault.symm.trans h) Bool.noConfusion

/-- Settles O48: after a FEEDB by the shapes at rest; a dropping scan finds neither rest nor a packet. -/
theorem invalidSkipNeverAtRest : Obligations.InvalidSkipNeverAtRest := by
  refine ⟨fun s t b h hf => ?_, fun P buf hP h => ⟨?_, ?_⟩⟩
  · obtain ⟨hs, rfl⟩ := decoderTransaction_eq_next.1 h
    rw [State.respond_params, s.feedByte_params]
    exact subState_of_atRest (State.atRest_feedByte hs hf)
  · exact Bool.eq_false_iff.2 fun hrest => (subState_of_atRest hrest).1 h
  · rintro id cmd payload rest hlen rfl
    simp [subState, scan_frame hP id cmd rest hlen] at h

/-- A FEEDB keeps the buffer no longer than it was with the byte appended (R152). -/
theorem State.feedByte_buf_length (s : State) (b : Byte) : (s.feedByte b).buf.length ≤ s.buf.length + 1 := by
  obtain ⟨-, -, -, -, hsuffix⟩ := (s.setBuf (s.buf ++ [b])).resolve_frame
  simpa [State.feedByte] using hsuffix.length_le

/-- Settles O50: the length at rest, before and after the FEEDB. -/
theorem bufferDepthSuffices : Obligations.BufferDepthSuffices := by
  intro s b hP hs hrest
  have hlen := length_le_of_atRest hrest
  have hbuf := s.feedByte_buf_length b
  obtain ⟨-, -, -, -, -, hdepth⟩ := hP
  refine ⟨hdepth, hlen, by simpa using Nat.lt_succ_of_le hlen, _, exec_feedb b hs, ?_, fun hf => ?_⟩
  · rw [State.respond_buf]
    omega
  · have hrest' : atRest s.params (s.feedByte b).buf = true := State.atRest_feedByte hs hf
    exact ⟨hrest', length_le_of_atRest hrest'⟩

end Sys2Proof.Machine

/-! The ready queue under FEEDB and FEED (41_decoder R150, R154): packets are only added at the back, each fits a size byte, and
a finite queue never grows beyond its depth. -/

namespace Sys2Proof.Machine

/-- `q` is `old` with packets of at most 248 payload bytes added at the back (R23, R154). -/
def Delivers (old q : List AckPacket) : Prop := ∃ new, q = old ++ new ∧ ∀ p ∈ new, p.payload.length ≤ maxPayload

theorem Delivers.refl (q : List AckPacket) : Delivers q q := ⟨[], q.append_nil.symm, List.forall_mem_nil _⟩

theorem Delivers.trans {a b c : List AckPacket} (hab : Delivers a b) (hbc : Delivers b c) : Delivers a c := by
  obtain ⟨m, rfl, hm⟩ := hab
  obtain ⟨n, rfl, hn⟩ := hbc
  exact ⟨m ++ n, List.append_assoc a m n, List.forall_mem_append.2 ⟨hm, hn⟩⟩

theorem Delivers.push (q : List AckPacket) {p : AckPacket} (h : p.payload.length ≤ maxPayload) : Delivers q (q ++ [p]) :=
  ⟨[p], rfl, List.forall_mem_singleton.2 h⟩

/-- Payload bounds of a queue stay (R23). -/
theorem Delivers.forall_payload {old q : List AckPacket} (h : Delivers old q)
    (hold : ∀ p ∈ old, p.payload.length ≤ maxPayload) : ∀ p ∈ q, p.payload.length ≤ maxPayload := by
  obtain ⟨new, rfl, hnew⟩ := h
  exact List.forall_mem_append.2 ⟨hold, hnew⟩

theorem State.resolve_delivers (s : State) : Delivers s.rq s.resolve.rq := by
  refine State.resolve_induction (motive := fun s t => Delivers s.rq t.rq) ?_ ?_ ?_ ?_ s
  · intro s _
    exact .refl _
  · intro s r t _ ih
    exact ih
  · intro s p r t h _ ih
    exact (Delivers.push s.rq (scan_packet_payload h)).trans ih
  · intro s p r _ _
    exact .refl _

theorem State.feedByte_delivers (s : State) (b : Byte) : Delivers s.rq (s.feedByte b).rq :=
  (s.setBuf (s.buf ++ [b])).resolve_delivers

theorem State.feedBytes_delivers (s : State) (bs : List Byte) : Delivers s.rq (s.feedBytes bs).rq := by
  induction bs generalizing s with
  | nil => exact .refl _
  | cons b bs ih =>
    cases hf : (s.feedByte b).faulted with
    | true => rw [State.feedBytes_cons_of_faulted hf]; exact s.feedByte_delivers b
    | false => rw [State.feedBytes_cons_of_unfaulted hf]; exact (s.feedByte_delivers b).trans (ih _)

/-- Settles O44: both transactions deliver. -/
theorem deliveryOrderIsKept : Obligations.DeliveryOrderIsKept := by
  rintro s t (⟨b, h⟩ | ⟨bs, h⟩)
  · obtain ⟨-, rfl⟩ := decoderTransaction_eq_next.1 h
    exact s.feedByte_delivers b
  · obtain ⟨-, rfl⟩ := decoderTransaction_eq_next.1 h
    exact s.feedBytes_delivers bs

/-- The queue is within `RQ_DEPTH` (R8, R22). -/
def State.QueueWithinDepth (s : State) : Prop := ∀ d, s.params.rqDepth = some d → s.rq.length ≤ d

/-- A queue that is not full has room for one packet more (R150). -/
theorem State.QueueWithinDepth.enqueue {s : State} (h : s.QueueWithinDepth) (hroom : s.queueFull = false) (p : AckPacket) :
    (s.enqueue p).QueueWithinDepth := by
  intro d hd
  have hle := h d hd
  have hne : s.rq.length ≠ d := by
    rintro rfl
    exact absurd (s.queueFull_iff.2 hd) (Bool.eq_false_iff.1 hroom)
  rw [State.enqueue_rq, List.length_append, List.length_singleton]
  omega

theorem State.QueueWithinDepth.resolve {s : State} (h : s.QueueWithinDepth) : s.resolve.QueueWithinDepth := by
  revert h
  refine State.resolve_induction (motive := fun s t => s.QueueWithinDepth → t.QueueWithinDepth) ?_ ?_ ?_ ?_ s
  · intro s _ h
    exact h
  · intro s r t _ ih h
    exact ih h
  · intro s p r t _ hroom ih h
    exact ih (h.enqueue hroom p)
  · intro s p r _ _ h
    exact h

end Sys2Proof.Machine

/-! The invariant of the state (10_state R22, R23, R26, 60_exceptions R186): it holds of a new decoder, and each effect of a
transaction keeps it. -/

namespace Sys2Proof.Machine

/-- The invariant speaks of the parameters and the decoder's three elements only. -/
theorem State.Inv.respond {s : State} (h : s.Inv) (o : Response) : (s.respond o).Inv := h

theorem State.Inv.withInput {s : State} (h : s.Inv) (is : List Instr) : State.Inv { s with input := is } := h

theorem State.fresh_inv {P : Params} (hP : P.Fixed) : (State.fresh P).Inv :=
  ⟨hP, fun _ => rfl, Nat.zero_le _, fun _ _ => Nat.zero_le _, List.forall_mem_nil _, fun hf => by cases hf⟩

/-- FEEDB: at rest the buffer has room for one byte, and resolve ends at rest or in the fault of R186. -/
theorem State.Inv.feedByte {s : State} (h : s.Inv) (hs : s.faulted = false) (b : Byte) : (s.feedByte b).Inv := by
  obtain ⟨hP, hrest, -, hdepth, hpayload, -⟩ := h
  have hends := State.resolve_ends (s.setBuf (s.buf ++ [b])) hs
  have hlen := length_le_of_atRest (hrest hs)
  have hbuf := s.feedByte_buf_length b
  have hdepth' : (s.feedByte b).QueueWithinDepth := State.QueueWithinDepth.resolve (s := s.setBuf (s.buf ++ [b])) hdepth
  refine ⟨by rwa [s.feedByte_params], fun hf => ?_, ?_, hdepth',
    (s.feedByte_delivers b).forall_payload hpayload, fun hf => ?_⟩
  · rw [s.feedByte_params]
    exact State.atRest_feedByte hs hf
  · obtain ⟨-, -, -, -, -, hbufDepth⟩ := hP
    rw [s.feedByte_params, hbufDepth]
    omega
  · rw [s.feedByte_params]
    rcases hends with ⟨hok, -⟩ | ⟨-, hfull⟩
    · exact absurd (hok.symm.trans hf) Bool.noConfusion
    · exact hfull

theorem State.Inv.feedBytes {s : State} (h : s.Inv) (hs : s.faulted = false) (bs : List Byte) : (s.feedBytes bs).Inv := by
  induction bs generalizing s with
  | nil => exact h
  | cons b bs ih =>
    cases hf : (s.feedByte b).faulted with
    | true => rw [State.feedBytes_cons_of_faulted hf]; exact h.feedByte hs b
    | false => rw [State.feedBytes_cons_of_unfaulted hf]; exact ih (h.feedByte hs b) hf

/-- Taking packets from the front of an unfaulted decoder's queue (R144, R145). -/
theorem State.Inv.dequeue {s : State} (h : s.Inv) (hs : s.faulted = false) {q : List AckPacket} (hq : q <:+ s.rq)
    (o : Response) : State.Inv { s with rq := q, out := o } := by
  obtain ⟨hP, hrest, hbuf, hdepth, hpayload, -⟩ := h
  exact ⟨hP, hrest, hbuf, fun d hd => hq.length_le.trans (hdepth d hd), fun p hp => hpayload p (hq.subset hp),
    fun hf => absurd (hs.symm.trans hf) Bool.noConfusion⟩

/-- Every transaction keeps the invariant. -/
theorem Effect.inv {i : Instr} {s t : State} (h : Effect s i t) (hinv : s.Inv) : t.Inv := by
  cases h with
  | request o => exact hinv.respond o
  | feedb b hs => exact (hinv.feedByte hs b).respond .silent
  | feed bs hs => exact (hinv.feedBytes hs bs).respond .silent
  | pop hs => exact hinv.dequeue hs (List.tail_suffix _) _
  | drain hs => exact hinv.dequeue hs List.nil_suffix _
  | reset => exact State.fresh_inv hinv.1

/-- Settles O54: an idle step changes nothing, and any other runs a transaction, whose effect keeps the invariant. -/
theorem invariantKeptByEveryStep : Obligations.InvariantKeptByEveryStep := by
  intro s t hinv h
  rcases step_cases h with ⟨-, rfl⟩ | ⟨i, rest, -, hexec⟩
  · exact hinv
  · exact (effect_of_exec hexec).inv (hinv.withInput rest)

/-- Settles O55: both are new decoders of a block with the values R8 fixes. -/
theorem invariantAtReset : Obligations.InvariantAtReset :=
  ⟨State.fresh_inv ⟨rfl, rfl, rfl, rfl, rfl, rfl⟩, fun _ => State.fresh_inv⟩

end Sys2Proof.Machine

/-! Reading the operands of a command frame (30_encoding R75, R76, R80 to R82): each reader inverts the bytes the encoder writes,
and accepts no others. -/

namespace Sys2Proof

theorem lowByte_append (hi lo : Byte) : lowByte (hi ++ lo) = lo := BitVec.extractLsb'_append_eq_right

theorem highByte_append (hi lo : Byte) : highByte (hi ++ lo) = hi := BitVec.extractLsb'_append_eq_left

/-- A value is read at its own width, and only from its own bytes (R46, R75). -/
theorem decodeValue_eq_some_iff {w : Width} {bytes : List Byte} {v : WriteValue} :
    decodeValue w bytes = some v ↔ valueWidth v = w ∧ bytes = leBytes v := by
  constructor
  · intro h
    unfold decodeValue at h
    split at h
    · cases h; exact ⟨rfl, rfl⟩
    · cases h; exact ⟨rfl, by rw [leBytes, lowByte_append, highByte_append]⟩
    · cases h
  · rintro ⟨rfl, rfl⟩
    cases v with
    | byte b => rfl
    | word v => exact congrArg (fun x => some (WriteValue.word x)) (highByte_append_lowByte v)

/-- The write length byte is exactly what the block sends before the value (R75). -/
theorem dropLengthField_eq_some_iff {P : Params} {w : Width} {bytes rest : List Byte} :
    dropLengthField P w bytes = some rest ↔ bytes = lengthField P w ++ rest := by
  unfold dropLengthField lengthField
  split
  · cases bytes with
    | nil => simp
    | cons l more => by_cases hl : l = widthByte w <;> simp [hl]
  · simp

/-- What the lookup finds is a row of the catalog with this space, offset and flag (R86, R87). -/
theorem lookupAddr_eq_some {P : Params} {sp : Space} {usable : CatalogAddr → Bool} {off : Byte} {a : CatalogAddr}
    (h : lookupAddr P sp usable off = some a) : a.inSpace P sp = true ∧ usable a = true ∧ a.off = off := by
  have hmem := List.mem_of_find?_eq_some h
  have hfound := List.find?_some h
  simp only [Bool.and_eq_true, decide_eq_true_eq] at hfound
  obtain ⟨⟨hsp, hoff⟩, husable⟩ := hfound
  exact ⟨Machine.inSpace_of_mem hmem hsp, husable, hoff⟩

theorem lookupAddr_of_inSpace {P : Params} (hP : P.wf = true) {sp : Space} {usable : CatalogAddr → Bool} {a : CatalogAddr}
    (ha : a.inSpace P sp = true) (hu : usable a = true) : lookupAddr P sp usable a.off = some a := by
  simp only [CatalogAddr.inSpace, Bool.and_eq_true, decide_eq_true_eq] at ha
  obtain ⟨hmem, rfl⟩ := ha
  exact lookupAddr_found hP hmem hu

/-- The payload of a write as the encoder builds it (R75). -/
def writePayload (P : Params) (a : CatalogAddr) (v : WriteValue) : List Byte := [a.off] ++ lengthField P a.w ++ leBytes v

theorem serializeWrite_eq_ok_iff {P : Params} {c cmd : Byte} {a : CatalogAddr} {v : WriteValue} {payload : List Byte} :
    serializeWrite P c a v = .ok (cmd, payload) ↔ valueWidth v = a.w ∧ c = cmd ∧ writePayload P a v = payload := by
  unfold serializeWrite writePayload
  split <;> simp_all

/-- A serialized write to an address the interface admits is read back (R75, R87). -/
theorem decodeWrite_of_serializeWrite {P : Params} (hP : P.wf = true) {sp : Space} {a : CatalogAddr} {v : WriteValue}
    {c cmd : Byte} {payload : List Byte} (ha : (a.inSpace P sp && a.writable) = true)
    (h : serializeWrite P c a v = .ok (cmd, payload)) : c = cmd ∧ decodeWrite P sp payload = .ok (a, v) := by
  obtain ⟨hv, rfl, rfl⟩ := serializeWrite_eq_ok_iff.1 h
  obtain ⟨hsp, hu⟩ := Bool.and_eq_true_iff.1 ha
  refine ⟨rfl, ?_⟩
  have hdrop : dropLengthField P a.w (lengthField P a.w ++ leBytes v) = some (leBytes v) :=
    dropLengthField_eq_some_iff.2 rfl
  have hvalue : decodeValue a.w (leBytes v) = some v := decodeValue_eq_some_iff.2 ⟨hv, rfl⟩
  simp only [writePayload, List.cons_append, List.nil_append, decodeWrite, lookupAddr_of_inSpace hP hsp hu, hdrop,
    Option.bind_some, hvalue]

/-- A write is read only from the payload that some write to an address the interface admits serializes to (R75, R87). -/
theorem decodeWrite_eq_ok {P : Params} {sp : Space} {payload : List Byte} {a : CatalogAddr} {v : WriteValue}
    (h : decodeWrite P sp payload = .ok (a, v)) (cmd : Byte) :
    (a.inSpace P sp && a.writable) = true ∧ serializeWrite P cmd a v = .ok (cmd, payload) := by
  unfold decodeWrite at h
  split at h
  · cases h
  · split at h
    · cases h
    · rename_i off rest _ a' hlookup
      split at h
      · cases h
      · rename_i hvalue
        cases h
        obtain ⟨bytes, hdrop, hvalue⟩ := Option.bind_eq_some_iff.1 hvalue
        obtain ⟨hwidth, rfl⟩ := decodeValue_eq_some_iff.1 hvalue
        obtain ⟨hsp, hu, rfl⟩ := lookupAddr_eq_some hlookup
        refine ⟨Bool.and_eq_true_iff.2 ⟨hsp, hu⟩, serializeWrite_eq_ok_iff.2 ⟨hwidth, rfl, ?_⟩⟩
        rw [dropLengthField_eq_some_iff.1 hdrop]
        rfl

theorem decodeRead_readPayload {P : Params} (hP : P.wf = true) {sp : Space} {a : CatalogAddr}
    (ha : (a.inSpace P sp && a.readable) = true) : decodeRead P sp (readPayload a) = .ok a := by
  obtain ⟨hsp, hu⟩ := Bool.and_eq_true_iff.1 ha
  simp only [readPayload, decodeRead, lookupAddr_of_inSpace hP hsp hu, if_true]

theorem decodeRead_eq_ok {P : Params} {sp : Space} {payload : List Byte} {a : CatalogAddr}
    (h : decodeRead P sp payload = .ok a) : (a.inSpace P sp && a.readable) = true ∧ readPayload a = payload := by
  unfold decodeRead at h
  split at h
  · split at h
    · cases h
    · rename_i hlookup
      split at h
      · rename_i hwidth
        cases h
        obtain ⟨hsp, hu, rfl⟩ := lookupAddr_eq_some hlookup
        exact ⟨Bool.and_eq_true_iff.2 ⟨hsp, hu⟩, by rw [hwidth, readPayload]⟩
      · cases h
  · cases h

/-- Jog fields are read only from the bytes of their own sub-block (R82, R91, R93). -/
theorem jogBlock_of_decodeJog {P : Params} {lo hi set : Byte} {mode : JogMode} {color : JogColor}
    (h : decodeJog P lo hi set = some (mode, color)) (tid pt : Byte) :
    jogBlock P mode color tid pt = [lo, hi, set, tid, pt] := by
  simp only [decodeJog] at h
  split at h
  · rename_i hbytes
    cases h
    rw [jogBlock, hbytes.1, hbytes.2, lowByte_append, highByte_append]
  · cases h

/-- The payload of an SJog as the encoder builds it (R80). -/
def sJogPayload (P : Params) (pt : Byte) (mode : JogMode) (color : JogColor) (tid : Byte) : List Byte :=
  [pt] ++ (jogBlock P mode color tid pt).take P.sjogBlockWidth

theorem decodeSJog_sJogPayload {P : Params} (hP : P.wf = true) (id pt : Byte) (mode : JogMode) (color : JogColor)
    (tid : Byte) : decodeSJog P id (sJogPayload P pt mode color tid) = .ok (.sJog id pt mode color tid) := by
  obtain ⟨-, hjog, hset, -, hwidth, -⟩ := P.wf_iff.1 hP
  have hread := decodeJog_jogBlock hjog hset color (highByte_append_lowByte (jogWord P mode))
  rcases hwidth with hwidth | hwidth
  · simp [sJogPayload, hwidth, jogBlock, decodeSJog, hread]
  · simp [sJogPayload, hwidth, jogBlock, decodeSJog, hread]

theorem decodeSJog_eq_ok {P : Params} {id : Byte} {payload : List Byte} {i : Instr} (h : decodeSJog P id payload = .ok i) :
    ∃ pt mode color tid, i = .sJog id pt mode color tid ∧ sJogPayload P pt mode color tid = payload := by
  unfold decodeSJog at h
  split at h
  · rename_i pt lo hi set tid tail
    split at h
    · rename_i htail
      split at h
      · rename_i mode color hread
        cases h
        refine ⟨pt, mode, color, tid, rfl, ?_⟩
        rw [sJogPayload, jogBlock_of_decodeJog hread]
        rcases htail with ⟨hwidth, rfl⟩ | ⟨hwidth, rfl⟩
        · rw [hwidth]; rfl
        · rw [hwidth]; rfl
      · cases h
    · cases h
  · cases h

/-- Entries are read only from their own blocks (R81, R82). -/
theorem entryBlocks_of_decodeEntries {P : Params} {payload : List Byte} {es : List JogEntry}
    (h : decodeEntries P payload = some es) : entryBlocks P es = payload := by
  induction payload using decodeEntries.induct P generalizing es with
  | case1 => cases h; rfl
  | case2 lo hi set tid pt rest mode color more hmore hread ih =>
    simp only [decodeEntries, hread, hmore, Option.some.injEq] at h
    rw [← h, entryBlocks, entryBlock, jogBlock_of_decodeJog hread, ih hmore]
    rfl
  | case3 lo hi set tid pt rest hnone =>
    rw [decodeEntries] at h
    split at h
    · rename_i hread hmore
      exact absurd hmore (hnone _ _ _ hread)
    · cases h
  | case4 payload hnil hcons =>
    rw [decodeEntries] at h
    · cases h
    · exact hnil
    · exact hcons

theorem decodeIJog_entryBlocks {P : Params} (hP : P.wf = true) (id : Byte) {es : List JogEntry}
    (hlen : es.length ≤ P.ijogMaxEntries) : decodeIJog P id (entryBlocks P es) = .ok (.iJog id es) := by
  obtain ⟨-, hjog, hset, -⟩ := P.wf_iff.1 hP
  simp only [decodeIJog, decodeEntries_entryBlocks hjog hset, hlen, if_true]

theorem decodeIJog_eq_ok {P : Params} {id : Byte} {payload : List Byte} {i : Instr} (h : decodeIJog P id payload = .ok i) :
    ∃ es, i = .iJog id es ∧ es.length ≤ P.ijogMaxEntries ∧ entryBlocks P es = payload := by
  unfold decodeIJog at h
  split at h
  · cases h
  · rename_i es hread
    split at h
    · rename_i hlen
      cases h
      exact ⟨es, rfl, hlen, entryBlocks_of_decodeEntries hread⟩
    · cases h

theorem decodeEmpty_eq_ok {i j : Instr} {payload : List Byte} (h : decodeEmpty i payload = .ok j) : j = i ∧ payload = [] := by
  cases payload with
  | nil => cases h; exact ⟨rfl, rfl⟩
  | cons b bs => cases h

theorem exists_of_map_eq_ok {ε α β : Type} {f : α → β} {x : Except ε α} {y : β} (h : x.map f = .ok y) :
    ∃ a, x = .ok a ∧ f a = y := by
  cases x with
  | error e => cases h
  | ok a => cases h; exact ⟨a, rfl, rfl⟩

end Sys2Proof

/-! The two round trips of command frames (30_encoding R60 to R94): the command byte selects the reader of the operation that was
serialized, and whatever a reader accepts serializes to the bytes it read. -/

namespace Sys2Proof

open Sys2Proof.Laws.PayloadBound

/-- With eight command bytes each selects the reader of its own operation (R72, R74). -/
theorem decodeRequest_by_cmd {P : Params} (h : P.cmd.toList.Nodup) (id : Byte) (payload : List Byte) :
    decodeRequest P id P.cmd.ramWrite payload = (decodeWrite P .ram payload).map (fun x => .writeRam id x.1 x.2) ∧
    decodeRequest P id P.cmd.eepWrite payload = (decodeWrite P .eep payload).map (fun x => .writeEep id x.1 x.2) ∧
    decodeRequest P id P.cmd.ramRead payload = (decodeRead P .ram payload).map (.readRam id) ∧
    decodeRequest P id P.cmd.eepRead payload = (decodeRead P .eep payload).map (.readEep id) ∧
    decodeRequest P id P.cmd.sJog payload = decodeSJog P id payload ∧
    decodeRequest P id P.cmd.iJog payload = decodeIJog P id payload ∧
    decodeRequest P id P.cmd.stat payload = decodeEmpty (.stat id) payload ∧
    decodeRequest P id P.cmd.reboot payload = decodeEmpty (.reboot id) payload := by
  have h' := List.nodup_reverse.2 h
  simp only [CmdBytes.toList, List.reverse_cons, List.reverse_nil, List.nil_append, List.cons_append, List.nodup_cons,
    List.mem_cons, List.not_mem_nil, not_or] at h h'
  simp [decodeRequest, h, h']

/-- A serialized request but an AckPolicy is read back from its id, command byte and payload (R72, R74). -/
theorem decodeRequest_serialize {P : Params} (hP : P.wf = true) {i : Instr} {id cmd : Byte} {payload : List Byte}
    (hack : ∀ id p, i ≠ .ackPolicy id p) (h : serialize P i = some (id, .ok (cmd, payload))) :
    decodeRequest P id cmd payload = .ok i := by
  obtain ⟨hw, hops⟩ := serialize_eq_some.1 h
  obtain ⟨-, -, -, hcmd, -⟩ := P.wf_iff.1 hP
  obtain ⟨hramWrite, heepWrite, hramRead, heepRead, hsJog, hiJog, hstat, hreboot⟩ :=
    decodeRequest_by_cmd hcmd id payload
  cases i with
  | writeRam id' a v =>
    obtain ⟨rfl, hser⟩ := Prod.mk.inj (Option.some.inj hops)
    obtain ⟨rfl, hread⟩ := decodeWrite_of_serializeWrite hP hw hser
    rw [hramWrite, hread]
    rfl
  | writeEep id' a v =>
    obtain ⟨rfl, hser⟩ := Prod.mk.inj (Option.some.inj hops)
    obtain ⟨rfl, hread⟩ := decodeWrite_of_serializeWrite hP hw hser
    rw [heepWrite, hread]
    rfl
  | readRam id' a =>
    cases hops
    rw [hramRead, decodeRead_readPayload hP hw]
    rfl
  | readEep id' a =>
    cases hops
    rw [heepRead, decodeRead_readPayload hP hw]
    rfl
  | sJog id' pt mode color tid =>
    cases hops
    exact hsJog.trans (decodeSJog_sJogPayload hP id pt mode color tid)
  | iJog id' es =>
    cases hops
    exact hiJog.trans (decodeIJog_entryBlocks hP id (of_decide_eq_true hw))
  | stat id' => cases hops; exact hstat
  | reboot id' => cases hops; exact hreboot
  | ackPolicy id' p => exact absurd rfl (hack id' p)
  | _ => cases hops

/-- Whatever the readers accept is a request the interface carries, and serializes to what was read. -/
theorem serialize_of_decodeRequest {P : Params} {i : Instr} {id cmd : Byte} {payload : List Byte}
    (h : decodeRequest P id cmd payload = .ok i) : serialize P i = some (id, .ok (cmd, payload)) := by
  unfold decodeRequest at h
  split at h
  · rename_i hcmd
    obtain ⟨x, hread, rfl⟩ := exists_of_map_eq_ok h
    obtain ⟨hw, hser⟩ := decodeWrite_eq_ok hread cmd
    exact serialize_eq_some.2 ⟨hw, congrArg (fun op => some (id, op)) (hcmd ▸ hser)⟩
  split at h
  · rename_i hcmd
    obtain ⟨x, hread, rfl⟩ := exists_of_map_eq_ok h
    obtain ⟨hw, hser⟩ := decodeWrite_eq_ok hread cmd
    exact serialize_eq_some.2 ⟨hw, congrArg (fun op => some (id, op)) (hcmd ▸ hser)⟩
  split at h
  · rename_i hcmd
    obtain ⟨a, hread, rfl⟩ := exists_of_map_eq_ok h
    obtain ⟨hw, rfl⟩ := decodeRead_eq_ok hread
    exact serialize_eq_some.2 ⟨hw, by rw [hcmd]; rfl⟩
  split at h
  · rename_i hcmd
    obtain ⟨a, hread, rfl⟩ := exists_of_map_eq_ok h
    obtain ⟨hw, rfl⟩ := decodeRead_eq_ok hread
    exact serialize_eq_some.2 ⟨hw, by rw [hcmd]; rfl⟩
  split at h
  · rename_i hcmd
    obtain ⟨pt, mode, color, tid, rfl, rfl⟩ := decodeSJog_eq_ok h
    exact serialize_eq_some.2 ⟨rfl, by rw [hcmd]; rfl⟩
  split at h
  · rename_i hcmd
    obtain ⟨es, rfl, hlen, rfl⟩ := decodeIJog_eq_ok h
    exact serialize_eq_some.2 ⟨decide_eq_true hlen, by rw [hcmd]; rfl⟩
  split at h
  · rename_i hcmd
    obtain ⟨rfl, rfl⟩ := decodeEmpty_eq_ok h
    exact serialize_eq_some.2 ⟨rfl, by rw [hcmd]; rfl⟩
  split at h
  · rename_i hcmd
    obtain ⟨rfl, rfl⟩ := decodeEmpty_eq_ok h
    exact serialize_eq_some.2 ⟨rfl, by rw [hcmd]; rfl⟩
  · cases h

/-- What is encoded is the frame of a serialized request (R102). -/
theorem encode_eq_some {P : Params} {i : Instr} {f : List Byte} (h : encode P i = some f) :
    ∃ id cmd payload, serialize P i = some (id, .ok (cmd, payload)) ∧ f = frame P id cmd payload := by
  unfold encode at h
  split at h
  · rename_i hser
    exact ⟨_, _, _, hser, (Option.some.inj h).symm⟩
  · cases h

/-- The frame of a request but an AckPolicy is decoded to the request. -/
theorem decode_encode {P : Params} (hP : P.wf = true) {i : Instr} {f : List Byte} (rest : List Byte)
    (hack : ∀ id p, i ≠ .ackPolicy id p) (h : encode P i = some f) : decode P (f ++ rest) = .instr i rest := by
  obtain ⟨id, cmd, payload, hser, rfl⟩ := encode_eq_some h
  have hfixed : P.Fixed := (P.wf_iff.1 hP).1
  rw [decode_frame hfixed id cmd payload rest (Machine.payload_length_le_of_serialize hfixed hser),
    decodeRequest_serialize hP hack hser]

/-- In a well-formed block an AckPolicy is encoded as the 1-byte write of its register (R79). -/
theorem encode_ackPolicy {P : Params} (hP : P.wf = true) (id p : Byte) : ∃ a, P.ackPolicyRam = some a ∧
    encode P (.ackPolicy id p) = encode P (.writeRam id a (.byte p)) := by
  obtain ⟨a, ha, -, hmem, hspace, hwritable, hw⟩ := Machine.ackPolicyRam_of_wf hP
  have hack : serialize P (.ackPolicy id p) = some (id, serializeAckPolicy P a p) :=
    serialize_eq_some.2 ⟨Option.isSome_of_eq_some ha, by rw [serializeOperands, ha]; rfl⟩
  have hwrite : serialize P (.writeRam id a (.byte p)) = some (id, serializeWriteRam P a (.byte p)) :=
    serialize_eq_some.2 ⟨Bool.and_eq_true_iff.2 ⟨Machine.inSpace_of_mem hmem hspace, hwritable⟩, rfl⟩
  refine ⟨a, ha, ?_⟩
  rw [encode, encode, hack, hwrite, Machine.serializeAckPolicy_eq_serializeWriteRam hw]

/-- Settles O57: by `decode_encode`, for an AckPolicy as the write it is encoded as. -/
theorem decodeEncode : Obligations.DecodeEncode := by
  refine ⟨fun P i f rest hP hack h => decode_encode hP rest hack h, fun P id p f rest hP h => ?_⟩
  obtain ⟨a, ha, hwrite⟩ := encode_ackPolicy hP id p
  exact ⟨a, ha, decode_encode hP rest (by nofun) (hwrite.symm.trans h)⟩

/-- What the decoder accepts: a header, a size byte within the bytes, a valid candidate and a payload that its operation's
reader accepts (R60, R68, R74). -/
theorem decode_eq_instr {P : Params} {bytes rest : List Byte} {i : Instr} (h : decode P bytes = .instr i rest) :
    ∃ size tail p, bytes = P.hdr0 :: P.hdr1 :: size :: tail ∧ size.toNat ≤ bytes.length ∧
      parseFrame P.cksumMask (bytes.take size.toNat) = some p ∧ decodeRequest P p.id p.cmd p.payload = .ok i ∧
      rest = bytes.drop size.toNat := by
  unfold decode at h
  split at h
  · rename_i h0 h1 size tail
    split at h
    · cases h
    rename_i hheader
    obtain ⟨rfl, rfl⟩ : h0 = P.hdr0 ∧ h1 = P.hdr1 := by simpa [not_or] using hheader
    split at h
    · cases h
    split at h
    · cases h
    rename_i hlen
    split at h
    · cases h
    rename_i p hparse
    split at h
    · rename_i hread
      cases h
      exact ⟨size, tail, p, rfl, Nat.le_of_not_lt hlen, hparse, hread, rfl⟩
    · cases h
  · cases h

/-- A valid candidate of its declared size is the frame of its packet (R62, R68, R101). -/
theorem take_eq_frame_of_parseFrame {P : Params} (hP : P.Fixed) {size : Byte} {tail : List Byte} {p : AckPacket}
    (hlen : size.toNat ≤ (P.hdr0 :: P.hdr1 :: size :: tail).length)
    (h : parseFrame P.cksumMask ((P.hdr0 :: P.hdr1 :: size :: tail).take size.toNat) = some p) :
    (P.hdr0 :: P.hdr1 :: size :: tail).take size.toNat = frame P p.id p.cmd p.payload := by
  obtain ⟨-, -, hfixed, -⟩ := hP
  have hpayload := parseFrame_payload_length h
  rw [List.length_take_of_le hlen] at hpayload
  obtain ⟨n, hn⟩ : ∃ n, size.toNat = n + 3 := ⟨size.toNat - 3, by omega⟩
  obtain ⟨h0, h1, size', k1, hf, rfl⟩ := parseFrame_eq_some h
  obtain ⟨rfl, rfl, rfl, -⟩ : P.hdr0 = h0 ∧ P.hdr1 = h1 ∧ size = size' ∧ tail.take n = _ := by simpa [hn] using hf
  have hsize : sizeByte P p.payload = size := by
    rw [sizeByte, hfixed, ← hpayload]
    exact BitVec.ofNat_toNat 8 size
  rw [hf, frame, hsize]
  rfl

/-- Settles O58: the candidate is a built frame, and its request serializes to the payload that was read. -/
theorem encodeDecode : Obligations.EncodeDecode := by
  intro P bytes rest i hP h
  obtain ⟨size, tail, p, rfl, hlen, hparse, hread, rfl⟩ := decode_eq_instr h
  have hser := serialize_of_decodeRequest hread
  refine ⟨(serialize_eq_some.1 hser).1, _, Machine.encode_of_serialize_ok hser, ?_⟩
  rw [← take_eq_frame_of_parseFrame hP hlen hparse, List.take_append_drop]

/-- Settles O59: the four frames are decoded by evaluation. -/
theorem writtenFramesDecode : Obligations.WrittenFramesDecode := by
  unfold Obligations.WrittenFramesDecode
  decide

end Sys2Proof

/-! What a transaction does not read (00_scope R2, R9, R13): the output port for every transaction; for the decoder every
parameter but the framing and the queue depth; the servo model for every transaction. -/

namespace Sys2Proof.Machine

theorem encoderTransaction_respond (bad : Option Refusal) (id : Byte) (op : Serialized) (s : State) (o : Response) :
    encoderTransaction bad id op (s.respond o) = encoderTransaction bad id op s := by
  cases bad with
  | none => rfl
  | some r => rfl

/-- The output port has no part in a FEEDB. -/
theorem State.feedByte_respond (s : State) (o : Response) (b : Byte) : (s.respond o).feedByte b = (s.feedByte b).respond o :=
  State.resolve_respond (s.setBuf (s.buf ++ [b])) o

/-- Every transaction overwrites the output port without reading it. -/
theorem exec_respond (i : Instr) (s : State) (o : Response) : exec i (s.respond o) = exec i s := by
  cases i with
  | feedb b => rw [exec, execFeedb, State.feedByte_respond]; rfl
  | feed bs => rw [exec, execFeed, State.feedBytes_respond]; rfl
  | pop => rw [exec_pop, exec_pop]; rfl
  | drain => rfl
  | reset => rfl
  | sJog id pt mode color tid => rfl
  | stat id => rfl
  | reboot id => rfl
  | ackPolicy id p =>
    simp only [exec, execAckPolicy, State.respond_params]
    split
    · rfl
    · exact encoderTransaction_respond ..
  | _ => exact encoderTransaction_respond ..

/-- Settles O4: the port holding `o` is the answer `o`. -/
theorem outputPortIsNeverRead : Obligations.OutputPortIsNeverRead := exec_respond

/-- The state in a block with the parameters `P`. -/
def State.withParams (s : State) (P : Params) : State := { s with params := P }

/-- The parameters the decoder reads agree: header bytes, `MIN_SIZE`, mask and queue depth (R2, R73). -/
structure SameDecoder (P Q : Params) : Prop where
  hdr0 : P.hdr0 = Q.hdr0
  hdr1 : P.hdr1 = Q.hdr1
  minSize : P.minSize = Q.minSize
  cksumMask : P.cksumMask = Q.cksumMask
  rqDepth : P.rqDepth = Q.rqDepth

theorem SameDecoder.scan_eq {P Q : Params} (h : SameDecoder P Q) (buf : List Byte) : scan P buf = scan Q buf := by
  unfold scan
  rw [h.hdr0, h.hdr1, h.minSize, h.cksumMask]

theorem SameDecoder.queueFull_eq {s : State} {P : Params} (h : SameDecoder P s.params) :
    (s.withParams P).queueFull = s.queueFull := by
  rw [Bool.eq_iff_iff, State.queueFull_iff, State.queueFull_iff, ← h.rqDepth]
  rfl

theorem SameDecoder.resolve_eq {s : State} {P : Params} (h : SameDecoder P s.params) :
    (s.withParams P).resolve = s.resolve.withParams P := by
  revert h
  refine State.resolve_induction (motive := fun s t => SameDecoder P s.params →
    (s.withParams P).resolve = t.withParams P) ?_ ?_ ?_ ?_ s
  · intro s hscan h
    exact State.resolve_wait (s := s.withParams P) ((h.scan_eq s.buf).trans hscan)
  · intro s r t hscan ih h
    rw [← h.scan_eq] at hscan
    exact (State.resolve_drops (s := s.withParams P) hscan).trans (ih h)
  · intro s p r t hscan hroom ih h
    rw [← h.scan_eq] at hscan
    rw [State.resolve_packet (s := s.withParams P) hscan, h.queueFull_eq, hroom]
    exact ih h
  · intro s p r hscan hfull h
    rw [← h.scan_eq] at hscan
    rw [State.resolve_packet (s := s.withParams P) hscan, h.queueFull_eq, hfull]
    rfl

theorem SameDecoder.feedByte_eq {s : State} {P : Params} (h : SameDecoder P s.params) (b : Byte) :
    (s.withParams P).feedByte b = (s.feedByte b).withParams P :=
  SameDecoder.resolve_eq (s := s.setBuf (s.buf ++ [b])) h

theorem SameDecoder.feedBytes_eq {s : State} {P : Params} (h : SameDecoder P s.params) (bs : List Byte) :
    (s.withParams P).feedBytes bs = (s.feedBytes bs).withParams P := by
  induction bs generalizing s with
  | nil => rfl
  | cons b bs ih =>
    have hrest := ih (s := s.feedByte b) (by rwa [s.feedByte_params])
    rw [← h.feedByte_eq] at hrest
    cases hf : (s.feedByte b).faulted with
    | true =>
      rw [State.feedBytes_cons_of_faulted hf, State.feedBytes_cons_of_faulted (by rwa [h.feedByte_eq]), h.feedByte_eq]
    | false =>
      rw [State.feedBytes_cons_of_unfaulted hf, State.feedBytes_cons_of_unfaulted (by rwa [h.feedByte_eq]), hrest]

theorem decoderTransaction_withParams (s t : State) (P : Params) :
    decoderTransaction (s.withParams P) (t.withParams P) = mapNext (State.withParams · P) (decoderTransaction s t) := by
  cases hs : s.faulted with
  | true => rw [decoderTransaction_of_faulted hs, decoderTransaction_of_faulted (s := s.withParams P) hs]; rfl
  | false => rw [decoderTransaction_of_unfaulted hs, decoderTransaction_of_unfaulted (s := s.withParams P) hs]; rfl

/-- A decoder transaction has the same outcome in every block with the decoder's parameters. -/
theorem SameDecoder.exec_eq {i : Instr} {s : State} {P : Params} (h : SameDecoder P s.params) (hi : i.isRequest = false) :
    exec i (s.withParams P) = mapNext (State.withParams · P) (exec i s) := by
  cases i with
  | feedb b => rw [exec, execFeedb, h.feedByte_eq]; exact decoderTransaction_withParams s ((s.feedByte b).respond .silent) P
  | feed bs => rw [exec, execFeed, h.feedBytes_eq]; exact decoderTransaction_withParams s ((s.feedBytes bs).respond .silent) P
  | pop =>
    rw [exec_pop, exec_pop]
    exact decoderTransaction_withParams s { s with rq := s.rq.tail, out := .popped s.qHead } P
  | drain => exact decoderTransaction_withParams s { s with rq := [], out := .drained s.rq } P
  | reset => rfl
  | _ => cases hi

/-- Settles O51: transaction by transaction, from the scan on. -/
theorem decoderReadsOnlyFramingAndDepth : Obligations.DecoderReadsOnlyFramingAndDepth :=
  fun _ _ _ hi h0 h1 hmin hmask hdepth => SameDecoder.exec_eq ⟨h0, h1, hmin, hmask, hdepth⟩ hi

/-- The state in the same block but with the servo model `m`. -/
def State.withServoModel (s : State) (m : ServoModel) : State := s.withParams { s.params with servoModel := m }

theorem mapNext_congr {f g : State → State} {r : Result} (h : ∀ t, r = .next t → f t = g t) : mapNext f r = mapNext g r := by
  cases r with
  | next t => exact congrArg _ (h t rfl)
  | fault r => rfl
  | refused r => rfl

/-- No frame depends on the servo model. -/
theorem encoderTransaction_withServoModel (bad : Option Refusal) (id : Byte) (op : Serialized) (s : State) (m : ServoModel) :
    encoderTransaction bad id op (s.withServoModel m) =
      mapNext (State.withServoModel · m) (encoderTransaction bad id op s) := by
  cases bad with
  | some r => rfl
  | none =>
    cases op with
    | error e => rfl
    | ok x => rfl

theorem serializeIJog_withServoModel (P : Params) (m : ServoModel) (es : List JogEntry) :
    serializeIJog { P with servoModel := m } es = serializeIJog P es := by
  rw [serializeIJog, entryBlocks_eq_flatMap, serializeIJog, entryBlocks_eq_flatMap]
  rfl

/-- Settles O52: for a decoder transaction by O51's lemma, for a request because nothing it reads depends on the model. -/
theorem servoModelHasNoEffect : Obligations.ServoModelHasNoEffect := by
  intro i s m
  change exec i (s.withServoModel m) = mapNext (State.withServoModel · m) (exec i s)
  cases hi : i.isRequest with
  | false =>
    have hport : exec i (s.withServoModel m) = _ :=
      SameDecoder.exec_eq (P := { s.params with servoModel := m }) ⟨rfl, rfl, rfl, rfl, rfl⟩ hi
    rw [hport]
    refine mapNext_congr fun t h => ?_
    rw [State.withServoModel, (effect_of_exec h).params_input.1]
  | true =>
    cases i with
    | writeRam id a v => exact encoderTransaction_withServoModel ..
    | writeEep id a v => exact encoderTransaction_withServoModel ..
    | readRam id a => exact encoderTransaction_withServoModel ..
    | readEep id a => exact encoderTransaction_withServoModel ..
    | sJog id pt mode color tid =>
      exact encoderTransaction_withServoModel none id (serializeSJog s.params pt mode color tid) s m
    | iJog id es =>
      have hser := serializeIJog_withServoModel s.params m es
      rw [exec, execIJog]
      change encoderTransaction _ _ (serializeIJog { s.params with servoModel := m } es) _ = _
      rw [hser]
      exact encoderTransaction_withServoModel ..
    | stat id => exact encoderTransaction_withServoModel none id (serializeStat s.params) s m
    | reboot id => exact encoderTransaction_withServoModel none id (serializeReboot s.params) s m
    | ackPolicy id p =>
      cases ha : s.params.ackPolicyRam with
      | none =>
        have ha' : (s.withServoModel m).params.ackPolicyRam = none := ha
        simp only [exec, execAckPolicy, ha, ha']
        rfl
      | some a =>
        have ha' : (s.withServoModel m).params.ackPolicyRam = some a := ha
        simp only [exec, execAckPolicy, ha, ha']
        exact encoderTransaction_withServoModel ..
    | _ => cases hi

end Sys2Proof.Machine

/-! Runs of the decoder (41_decoder R142, R143, R146): the loop ends from every buffer, every FEED completes, and with an
unbounded queue a FEED is one run of the loop over the old buffer and the bytes, however they are cut into chunks. -/

namespace Sys2Proof.Machine

/-- Settles O27: the loop ends where `State.resolve` ends, from any state that holds the buffer and the queue. -/
theorem resolveLoopTerminates : Obligations.ResolveLoopTerminates := by
  intro P buf q hP
  let s : State := { State.fresh P with buf := buf, rq := q }
  have hloop := State.resolvesTo_iff_resolve (s := s) hP rfl
  obtain ⟨-, -, -, hrq, hbuf⟩ := s.resolve_frame
  exact ⟨_, _, _, (hloop _ _ _).2 ⟨rfl, rfl, rfl⟩, hbuf, hrq, fun B Q f => (hloop B Q f).1⟩

/-- The FEEDBs that a FEED comes to: all of its bytes, or those up to the one that faults (R142, R186). -/
theorem State.exists_feedbs_of_feedBytes {s : State} (hs : s.faulted = false) (bs : List Byte) :
    ∃ k u, k ≤ bs.length ∧ runAll ((bs.take k).map Instr.feedb) s = .next u ∧
      (s.feedBytes bs).respond .silent = u.respond .silent ∧ (k = bs.length ∨ (s.feedBytes bs).faulted = true) := by
  induction bs generalizing s with
  | nil => exact ⟨0, s, Nat.le_refl 0, rfl, rfl, .inl rfl⟩
  | cons b bs ih =>
    have hfirst := exec_feedb b hs
    cases hf : (s.feedByte b).faulted with
    | true =>
      rw [State.feedBytes_cons_of_faulted hf]
      exact ⟨1, _, Nat.succ_le_succ (Nat.zero_le _), runAll_cons_of_next hfirst [], rfl, .inr hf⟩
    | false =>
      obtain ⟨k, u, hk, hrun, hend, hall⟩ := ih (s := (s.feedByte b).respond .silent) hf
      rw [State.feedBytes_respond] at hend hall
      rw [State.feedBytes_cons_of_unfaulted hf]
      exact ⟨k + 1, u, Nat.succ_le_succ hk, (runAll_cons_of_next hfirst _).trans hrun, hend, hall.imp_left (congrArg _)⟩

/-- Settles O29: the FEEDBs by induction over the bytes, the frame by that of a FEED. -/
theorem feedAlwaysCompletes : Obligations.FeedAlwaysCompletes := by
  intro s bs hs
  obtain ⟨k, u, hk, hrun, hend, hall⟩ := State.exists_feedbs_of_feedBytes hs bs
  obtain ⟨hparams, hinput, -, -⟩ := s.feedBytes_frame bs
  exact ⟨_, u, k, exec_feed bs hs, State.respond_eq_update hparams hinput .silent, hk, hrun, hend, hall⟩

/-- With an unbounded queue a FEED to a decoder at rest is one run of the loop over the buffer and all the bytes (R143). -/
theorem State.feedBytes_eq_resolve {s : State} (hs : s.faulted = false) (hq : s.params.rqDepth = none)
    (hrest : atRest s.params s.buf = true) (bs : List Byte) : s.feedBytes bs = (s.setBuf (s.buf ++ bs)).resolve := by
  induction bs generalizing s with
  | nil =>
    rw [List.append_nil, State.setBuf_self, State.resolve_wait ((scan_wait_iff _ _).2 hrest)]
    rfl
  | cons b bs ih =>
    have hf : (s.feedByte b).faulted = false := State.resolve_unbounded (s.setBuf (s.buf ++ [b])) hs hq
    have happend := State.resolve_append bs (s.setBuf (s.buf ++ [b])) hf
    have hrest' := State.atRest_feedByte hs hf
    rw [State.feedBytes_cons_of_unfaulted hf, List.append_cons,
      ih hf (by rwa [s.feedByte_params]) (by rwa [s.feedByte_params])]
    exact happend.symm

/-- The state with the packets `q` in front of its queue. -/
def State.withOlder (s : State) (q : List AckPacket) : State := { s with rq := q ++ s.rq }

/-- With an unbounded queue the loop pushes the same packets whatever the queue holds. -/
theorem State.resolve_withOlder (q : List AckPacket) {s : State} (hq : s.params.rqDepth = none) :
    (s.withOlder q).resolve = s.resolve.withOlder q := by
  revert hq
  refine State.resolve_induction (motive := fun s t => s.params.rqDepth = none →
    (s.withOlder q).resolve = t.withOlder q) ?_ ?_ ?_ ?_ s
  · intro s h _
    exact State.resolve_wait (s := s.withOlder q) h
  · intro s r t h ih hq
    exact (State.resolve_drops (s := s.withOlder q) h).trans (ih hq)
  · intro s p r t h _ ih hq
    have hroom : (s.withOlder q).queueFull = false := State.queueFull_of_unbounded hq
    have hpush : (s.withOlder q).enqueue p = (s.enqueue p).withOlder q := by
      simp [State.withOlder, State.enqueue]
    rw [State.resolve_packet (s := s.withOlder q) h, hroom, hpush]
    exact ih hq
  · intro s p r _ hfull hq
    exact absurd hfull (Bool.eq_false_iff.1 (State.queueFull_of_unbounded hq))

/-- Settles O30: the chunks come to one FEED, the FEED to one run of the loop, and that run pushes what it pushes to an empty
queue. -/
theorem fragmentationInvariance : Obligations.FragmentationInvariance := by
  intro s chunks hP hs hq hrest
  let empty : State := { s.setBuf (s.buf ++ chunks.flatten) with rq := [] }
  have hold : s.setBuf (s.buf ++ chunks.flatten) = empty.withOlder s.rq := by
    simp [empty, State.withOlder, State.setBuf]
  have hfeed : s.feedBytes chunks.flatten = empty.resolve.withOlder s.rq := by
    rw [State.feedBytes_eq_resolve hs hq hrest, hold, State.resolve_withOlder s.rq (s := empty) hq]
  have hf : empty.resolve.faulted = false := empty.resolve_unbounded hs hq
  obtain ⟨o, ho⟩ := feedChunks_eq_feedBytes (chunks := chunks) hs (by rw [hfeed]; exact hf)
  rw [hfeed] at ho
  exact ⟨_, empty.resolve.rq, ho, rfl, hf, (State.resolvesTo_iff_resolve (s := empty) hP hs _ _ _).2 ⟨rfl, rfl, hf.symm⟩⟩

/-- Settles O46: `Stat`'s frame fed to an idle decoder, which delivers it, and to one with `FF` in its buffer, which holds it back
(DV-11), both by evaluation. -/
theorem bufferIsHiddenState : Obligations.BufferIsHiddenState :=
  ⟨State.reset, _, _, _, [0xFF, 0xFF, 0x07, 0xFD, 0x07, 0xFC, 0x02], rfl, rfl, rfl, rfl, rfl, rfl, rfl, rfl⟩

end Sys2Proof.Machine

/-! One FEEDB, by what it completes (41_decoder R150, R151, R155, R158, 60_exceptions R186): a byte that leaves the buffer at rest
is kept, and a byte that completes a candidate delivers it, overflows or starts the rescan. -/

namespace Sys2Proof.Machine

/-- A byte that leaves the buffer at rest is appended and nothing else happens (R146). -/
theorem exec_feedb_of_atRest {s : State} {b : Byte} {buf : List Byte} (hs : s.faulted = false) (hbuf : s.buf ++ [b] = buf)
    (h : atRest s.params buf = true) : exec (.feedb b) s = .next { s with buf := buf, out := .silent } := by
  have hbyte : s.feedByte b = s.setBuf buf := by
    rw [State.feedByte, hbuf]
    exact State.resolve_wait (s := s.setBuf buf) ((scan_wait_iff _ _).2 h)
  rw [exec_feedb b hs, hbyte]
  rfl

/-- A candidate that has just its declared size is a packet or loses its first byte (R150, R151). -/
theorem scan_complete {P : Params} {size : Byte} {tail : List Byte} (hmin : P.minSize ≤ size.toNat)
    (hlen : size.toNat = tail.length + 3) :
    scan P (P.hdr0 :: P.hdr1 :: size :: tail) =
      (parseFrame P.cksumMask (P.hdr0 :: P.hdr1 :: size :: tail)).elim (.mismatch (P.hdr1 :: size :: tail)) (.packet · []) := by
  have htake : (P.hdr0 :: P.hdr1 :: size :: tail).take size.toNat = P.hdr0 :: P.hdr1 :: size :: tail :=
    List.take_of_length_le hlen.ge
  have hdrop : (P.hdr0 :: P.hdr1 :: size :: tail).drop size.toNat = [] := List.drop_of_length_le hlen.ge
  have hsize : ¬ size.toNat < P.minSize := Nat.not_lt.2 hmin
  have hall : ¬ tail.length + 3 < size.toNat := Nat.not_lt.2 hlen.le
  simp only [scan, ne_eq, not_true_eq_false, if_false, hsize, hall, htake, hdrop]
  cases parseFrame P.cksumMask (P.hdr0 :: P.hdr1 :: size :: tail) with
  | none => rfl
  | some p => rfl

/-- The byte that completes a valid frame delivers its packet where the queue has room (R150). -/
theorem exec_feedb_of_packet {s : State} {b : Byte} {p : AckPacket} (hs : s.faulted = false)
    (hscan : scan s.params (s.buf ++ [b]) = .packet p []) (hroom : s.params.rqDepth ≠ some s.rq.length) :
    exec (.feedb b) s = .next { s with buf := [], rq := s.rq ++ [p], out := .silent } := by
  have hfull : (s.setBuf (s.buf ++ [b])).queueFull = false := by rwa [← Bool.not_eq_true, State.queueFull_iff]
  have hbyte : s.feedByte b = ((s.setBuf (s.buf ++ [b])).enqueue p).setBuf [] := by
    rw [State.feedByte, State.resolve_packet (s := s.setBuf (s.buf ++ [b])) hscan, hfull]
    exact State.resolve_wait rfl
  rw [exec_feedb b hs, hbyte]
  rfl

/-- The byte that completes a valid frame faults where the queue is full, and the frame stays in the buffer (R186). -/
theorem exec_feedb_of_overflow {s : State} {b : Byte} {p : AckPacket} {rest : List Byte} (hs : s.faulted = false)
    (hscan : scan s.params (s.buf ++ [b]) = .packet p rest) (hfull : s.params.rqDepth = some s.rq.length) :
    exec (.feedb b) s = .next { s with buf := s.buf ++ [b], faulted := true, out := .silent } := by
  have hbyte : s.feedByte b = (s.setBuf (s.buf ++ [b])).raiseQueueOverflow := by
    rw [State.feedByte, State.resolve_packet (s := s.setBuf (s.buf ++ [b])) hscan, if_pos]
    exact (State.queueFull_iff _).2 hfull
  rw [exec_feedb b hs, hbyte]
  rfl

/-- Settles O36: at rest the frame is short enough for its size byte, so that the scan finds it; an unbounded queue is never
full. -/
theorem queueOverflowEntry : Obligations.QueueOverflowEntry := by
  refine ⟨fun s b id cmd payload hP hs hrest hfull hframe => ?_, fun s t b hq h => ?_⟩
  · have hlen : payload.length ≤ maxPayload := by
      have hbuf := length_le_of_atRest hrest
      have hsize := congrArg List.length hframe
      rw [List.length_append, List.length_singleton, frame_length] at hsize
      rw [maxPayload]
      omega
    have hscan : scan s.params (s.buf ++ [b]) = .packet ⟨id, cmd, payload⟩ [] := by
      rw [hframe, ← List.append_nil (frame _ _ _ _)]
      exact scan_frame hP id cmd [] hlen
    exact exec_feedb_of_overflow hs hscan hfull
  · obtain ⟨hs, rfl⟩ := decoderTransaction_eq_next.1 h
    exact State.resolve_unbounded (s.setBuf (s.buf ++ [b])) hs hq

/-- Settles O40: both sides are the run of the loop over the candidate without its first byte. -/
theorem corruptFrameIsRescanned : Obligations.CorruptFrameIsRescanned := by
  intro s b size tail hP hs hq hbuf hlen hsize hinvalid
  obtain ⟨h0, h1, -, hmin, -⟩ := hP
  have hparse : parseFrame s.params.cksumMask (0xFF :: 0xFF :: size :: tail) = none := by
    rw [← hbuf]
    exact Option.not_isSome_iff_eq_none.1 (Bool.eq_false_iff.1 hinvalid)
  have hscan := scan_complete (P := s.params) (hmin.trans_le hsize) hlen
  rw [h0, h1, hparse, ← hbuf] at hscan
  have hrescan : ({ s with buf := [] } : State).feedBytes (0xFF :: size :: tail) = (s.setBuf (0xFF :: size :: tail)).resolve :=
    State.feedBytes_eq_resolve (s := { s with buf := [] }) hs hq rfl _
  rw [exec_feedb b hs, exec_feed (s := { s with buf := [] }) _ hs, hrescan, State.feedByte,
    State.resolve_drops (s := s.setBuf (s.buf ++ [b])) (.inr (.inr hscan)), State.setBuf_setBuf]

/-- Settles O43: the buffer is at rest up to the declared size. -/
theorem falseCandidateHolds : Obligations.FalseCandidateHolds := by
  intro s size tail bs hP hs hbuf hsize hlen
  have hrest : atRest s.params (s.buf ++ bs) = true := by
    rw [hbuf] at hlen ⊢
    refine atRest_candidate (tail := tail ++ bs) hP hsize ?_
    simp only [List.length_cons, List.length_append] at hlen ⊢
    omega
  have hlt := size.isLt
  refine ⟨?_, by omega, hrest⟩
  rw [exec_feed bs hs, State.feedBytes_of_atRest hs hrest]
  rfl

/-- At rest only a candidate awaits its body, and its size tells how much (R24). -/
theorem candidate_of_subState {P : Params} {buf : List Byte} {n : Nat} (h : atRest P buf = true)
    (hn : subState P buf = .awaitingBody n) : ∃ size tail, buf = P.hdr0 :: P.hdr1 :: size :: tail ∧
      P.minSize ≤ size.toNat ∧ size.toNat = tail.length + 3 + n := by
  have hscan := (scan_wait_iff P buf).2 h
  rcases atRest_cases h with rfl | rfl | rfl | ⟨size, tail, rfl, hmin, hlen⟩
  · cases hn
  · simp [subState, hscan] at hn
  · simp [subState, hscan] at hn
  · rw [subState_candidate h, SubState.awaitingBody.injEq] at hn
    exact ⟨size, tail, rfl, hmin, by omega⟩

/-- After `FF` another byte leaves the decoder idle: `FF` is dropped by R148 and the byte by R147. -/
theorem State.feedByte_slide {s : State} {b : Byte} (hP : s.params.Fixed) (hbuf : s.buf = [0xFF]) (hb : b ≠ 0xFF) :
    s.feedByte b = s.setBuf [] := by
  have hfirst : scan s.params [0xFF, b] = .badByte [b] := hP.1 ▸ scan_badSecond [] (hP.2.1.symm ▸ hb)
  have hsecond : scan s.params [b] = .badByte [] := scan_badFirst [] (hP.1.symm ▸ hb)
  rw [State.feedByte, hbuf]
  calc (s.setBuf [0xFF, b]).resolve
    _ = (s.setBuf [b]).resolve := State.resolve_drops (s := s.setBuf [0xFF, b]) (.inl hfirst)
    _ = (s.setBuf []).resolve := State.resolve_drops (s := s.setBuf [b]) (.inl hsecond)
    _ = s.setBuf [] := State.resolve_wait rfl

/-- AwaitingBody counts down: a byte of an incomplete candidate is kept (R158). -/
theorem exec_feedb_awaitingBody {s : State} {b : Byte} {r : Nat} (hs : s.faulted = false)
    (hrest : atRest s.params s.buf = true) (hsub : subState s.params s.buf = .awaitingBody (r + 2)) :
    exec (.feedb b) s = .next { s with buf := s.buf ++ [b], out := .silent } ∧
      subState s.params (s.buf ++ [b]) = .awaitingBody (r + 1) := by
  obtain ⟨size, tail, hbuf, hmin, hlen⟩ := candidate_of_subState hrest hsub
  have hkeep : atRest s.params (s.buf ++ [b]) = true := by
    have hmore : tail.length + 1 + 3 < size.toNat := by omega
    simpa [hbuf, atRest, hmin] using hmore
  refine ⟨exec_feedb_of_atRest hs rfl hkeep, ?_⟩
  rw [hbuf, List.cons_append, List.cons_append, List.cons_append] at hkeep ⊢
  rw [subState_candidate hkeep, List.length_append, List.length_singleton, hlen]
  congr 1
  omega

/-- Settles O49: bytes kept at rest, the drops of R147 to R149, and the byte that completes a valid frame. -/
theorem subStateTransitions : Obligations.SubStateTransitions := by
  intro s b hP hs
  have hpair : atRest s.params [0xFF, 0xFF] = true :=
    atRest_of_append (b := [0xFF]) (atRest_candidate (tail := []) hP (by decide) (by decide))
  have hone : atRest s.params [0xFF] = true := atRest_of_append (b := [0xFF]) hpair
  refine ⟨fun hbuf hb => ?_, fun hbuf hb => ?_, fun hbuf hb => ?_, fun hbuf hb => ?_, fun hbuf hb => ?_,
    fun hbuf hb => badSizeIsDropped.1 s b hP hs hbuf hb, fun r hrest hsub => exec_feedb_awaitingBody hs hrest hsub,
    fun p hrest hsub hparse hroom => ?_⟩
  · exact exec_feedb_of_atRest hs (by rw [hbuf, hb]; rfl) hone
  · have hdrop : s.feedByte b = s := State.feedByte_noise hbuf (hP.1.symm ▸ hb)
    rw [exec_feedb b hs, hdrop, ← hbuf]
    rfl
  · exact exec_feedb_of_atRest hs (by rw [hbuf, hb]; rfl) hpair
  · rw [exec_feedb b hs, State.feedByte_slide hP hbuf hb]
    rfl
  · have hrest : atRest s.params [0xFF, 0xFF, b] = true := atRest_candidate (tail := []) hP hb (Nat.lt_of_lt_of_le (by decide) hb)
    exact ⟨exec_feedb_of_atRest hs (by rw [hbuf]; rfl) hrest, subState_candidate hrest⟩
  · obtain ⟨size, tail, hbuf, hmin, hlen⟩ := candidate_of_subState hrest hsub
    have hscan := scan_complete (tail := tail ++ [b]) hmin (by simpa using hlen)
    have happend : s.buf ++ [b] = s.params.hdr0 :: s.params.hdr1 :: size :: (tail ++ [b]) := by rw [hbuf]; rfl
    rw [← happend, hparse] at hscan
    exact exec_feedb_of_packet hs hscan hroom

/-- Settles O45: the last byte of a corrupt candidate whose body is the frames of a Reboot and of a Stat. -/
theorem oneFeedbPushesTwoPackets : Obligations.OneFeedbPushesTwoPackets :=
  ⟨{ State.reset with buf := [0xFF, 0xFF, 17, 0xFF, 0xFF, 0x07, 0xFE, 0x09, 0xF0, 0x0E, 0xFF, 0xFF, 0x07, 0xFD, 0x07, 0xFC] },
    _, 0x02, ⟨0xFE, 0x09, []⟩, ⟨0xFD, 0x07, []⟩, rfl, rfl, by decide, rfl, rfl, by decide, by decide⟩

end Sys2Proof.Machine
